-- ==== Sys2Proof/Word.lean ====
section
/-! DEFINITION. The machine's word and byte types (00_scope.md R6, R21). -/

namespace Sys2Proof

/-- A memory cell, an instruction word, a register or a stack entry: an unsigned 16-bit value (R6, R31, R41). -/
abbrev Word := BitVec 16

/-- One value of the OUT and IN interfaces (R21, R22). -/
abbrev Byte := BitVec 8

/-- A text, for the assembler of R108. -/
abbrev Text := List Char

end Sys2Proof
end

