-- ==== Sys2Proof/Config.lean ====
section
/-! DEFINITION. The three open parameters that 00_scope.md R13 makes arguments of a model. There is no free value:
the spec leaves no value of this machine undefined (70_reset_and_hazards.md R270). -/

namespace Sys2Proof

/-- RMEM_WIDE (46_memory.md R223): what RMEM writes for a cell of 32768 to 65535. -/
inductive RmemWide where
  | storeRaw
  | mask15
  deriving DecidableEq, Repr

/-- IN_EOF (47_io.md R232): what IN does once the input source has ended. -/
inductive InEof where
  | block
  | sentinel (s : Byte)
  | fail
  deriving DecidableEq, Repr

/-- The parameters of R13. `stackCapacity = none` is the unbounded stack (10_state.md R44). -/
structure Config where
  rmemWide      : RmemWide
  inEof         : InEof
  stackCapacity : Option Nat
  deriving DecidableEq, Repr

/-- The reference values of R13, which every example of 95_test_vectors.md uses. -/
def Config.reference : Config :=
  { rmemWide := .storeRaw, inEof := .block, stackCapacity := none }

end Sys2Proof
end

