-- ==== Sys2Proof/Syntax.lean ====
section
/-! DEFINITION. The instructions, one constructor per opcode of 30_encoding.md R93, with operand words decoded once
into the tagged variant of R96. -/

namespace Sys2Proof

/-- One of R0 to R7 (10_state.md R31). -/
abbrev RegIndex := Fin 8

/-- An operand word by its class (R95, R96). An invalid word keeps its bits, so that encoding gives it back. -/
inductive Operand where
  | literal  (v : BitVec 15)
  | register (i : RegIndex)
  | invalid  (w : Word)
  deriving DecidableEq, Repr

/-- The 22 opcodes, and the unknown opcode words 22 to 65535 (R102). Operands are a, b, c in the order of R93. -/
inductive Instr where
  | halt
  | set  (a b : Operand)
  | push (a : Operand)
  | pop  (a : Operand)
  | eq   (a b c : Operand)
  | gt   (a b c : Operand)
  | jmp  (a : Operand)
  | jt   (a b : Operand)
  | jf   (a b : Operand)
  | add  (a b c : Operand)
  | mult (a b c : Operand)
  | mod  (a b c : Operand)
  | and  (a b c : Operand)
  | or   (a b c : Operand)
  | not  (a b : Operand)
  | rmem (a b : Operand)
  | wmem (a b : Operand)
  | call (a : Operand)
  | ret
  | out  (a : Operand)
  | inp  (a : Operand)
  | noop
  | unknown (op : Word)
  deriving DecidableEq, Repr

end Sys2Proof
end

