-- ==== Sys2Proof/Machine/State.lean ====
section
/-! DEFINITION. The state of the machine, 10_state.md R30, with the model's own fields for the input source and the
open parameters; the reasons a step does not exist; the state right after reset. -/

namespace Sys2Proof.Machine

/-- The 32768 cells (20_memory.md R70) as a list of (address, word) pairs: addresses strictly rising, every one at
most 32767, no entry equal to what an unlisted address reads as. The unit is the 16-bit cell, because the core has no
byte addressing (R75): log 1. -/
abbrev Memory := List (Nat × Word)

/-- What a cell no entry lists reads as: 0, as the cells the image does not fill (10_state.md R65). -/
def unlistedCell : Word := 0

/-- run (10_state.md R50). -/
inductive RunState where
  | running
  | halted
  | failed
  deriving DecidableEq, Repr

/-- The fault kinds of 60_exceptions.md R240. -/
inductive FaultKind where
  | invalidOperand
  | invalidDestination
  | stackUnderflow
  | arithmeticFault
  | invalidAddress
  | imageTooLarge
  | inputExhausted
  deriving DecidableEq, Repr

/-- fault, when it is not none: a kind and the cursor of the failing instruction (10_state.md R52). -/
structure FaultRecord where
  kind   : FaultKind
  cursor : Nat
  deriving DecidableEq, Repr

/-- The host's input source as 10_state.md R54 has a model represent it: the bytes not yet taken, next first, and
whether it has ended (47_io.md R232). The model's own, not core state: log 4. -/
structure InputSource where
  pending : List Byte
  ended   : Bool
  deriving DecidableEq, Repr

structure State where
  /-- R70. -/
  mem    : Memory
  /-- R31. -/
  x      : Vector Word 8
  /-- The cursor, an integer in 0 to 32768 (R37, R40). -/
  pc     : Nat
  /-- Top last (R41). -/
  stack  : List Word
  /-- R50. -/
  run    : RunState
  /-- R52. -/
  fault  : Option FaultRecord
  /-- The bytes emitted so far, oldest first (R53). -/
  outlog : List Byte
  /-- The model's own field (R54): log 4. -/
  input  : InputSource
  /-- The model's own field, the parameters of R13, which no step changes: log 3. -/
  cfg    : Config
  deriving DecidableEq, Repr

/-- The reasons no step exists. Each is a stuck machine, not a fault of the program: a fault the spec describes is a
next state whose `run` is `failed` (R128, log 8). -/
inductive Fault where
  /-- Raised by `step` when run is HALTED: the state is terminal (R130). Safe. -/
  | haltedIsTerminal
  /-- Raised by `step` when run is FAILED: the state is terminal (R130). Safe. -/
  | failedIsTerminal
  /-- Raised by IN while no byte is available: the core has no step until one arrives (R55, R231), or ever, when
  the source has ended under IN_EOF = Block (R232). Safe. -/
  | waitingForInput
  /-- Raised by PUSH and CALL when the stack already holds STACK_CAPACITY entries: the core is stuck and no fault is
  recorded (R44). Safe. -/
  | stackFull
  deriving DecidableEq, Repr

inductive Refusal where
  /-- Raised by `exec` for an instruction that has no meaning in the model yet; no arm uses it now. Safe. -/
  | notModelled (mnemonic : String)
  deriving DecidableEq, Repr

/-- What ends a handler before its writes. -/
inductive Stop where
  /-- `raise K` of 00_scope.md R26. -/
  | raise (k : FaultKind)
  /-- The step does not exist. -/
  | stuck (f : Fault)
  deriving DecidableEq, Repr

/-- The outcome of one step. -/
abbrev Result := Host.Outcome State Fault Refusal

/-- Reset (70_reset_and_hazards.md R270) with the empty image, which R271 calls legal, the reference values of R13 and
no input supplied yet (log 3, log 4, log 14). -/
def State.reset : State :=
  { mem    := []
    x      := Vector.replicate 8 0
    pc     := 0
    stack  := []
    run    := .running
    fault  := none
    outlog := []
    input  := { pending := [], ended := false }
    cfg    := Config.reference }

end Sys2Proof.Machine
end

