-- ==== Sys2Proof/Machine/Ops.lean ====
section
/-! DEFINITION. The named operations of 00_scope.md R26 over memory, registers, stack, pc and the two byte channels;
fault entry and clean end. -/

namespace Sys2Proof.Machine

/-! ### Memory -/

/-- The canonical form of a memory. -/
abbrev Memory.wf (m : Memory) : Prop :=
  m.Pairwise (fun c d => c.1 < d.1) ∧ ∀ c ∈ m, c.1 ≤ 32767 ∧ c.2 ≠ unlistedCell

/-- The word at an address: its entry, or what an unlisted cell reads as. -/
def Memory.read : Memory → Nat → Word
  | [], _ => unlistedCell
  | (b, v) :: m, a => if a = b then v else Memory.read m a

/-- The entry of a cell in front of a memory, none when the word is what an unlisted cell reads as. -/
def Memory.entry (a : Nat) (v : Word) (m : Memory) : Memory :=
  if v = unlistedCell then m else (a, v) :: m

/-- Set one cell, keeping the canonical form. -/
def Memory.write : Memory → Nat → Word → Memory
  | [], a, v => Memory.entry a v []
  | (b, w) :: m, a, v =>
    if a < b then Memory.entry a v ((b, w) :: m)
    else if a = b then Memory.entry a v m
    else (b, w) :: Memory.write m a v

/-- The memory that holds the given words from an address on, and nothing else (R271). -/
def Memory.fill : Nat → List Word → Memory
  | _, [] => []
  | a, v :: vs => Memory.entry a v (Memory.fill (a + 1) vs)

/-- `MemRead(addr, 1)` (R72): InvalidAddress outside 0 to 32767. -/
def memRead (a : Nat) (s : State) : Except Stop Word :=
  if a ≤ 32767 then .ok (s.mem.read a) else .error (.raise .invalidAddress)

/-- `MemWrite(addr, 1, v)` (R73): InvalidAddress outside 0 to 32767, and then nothing is written. -/
def memWrite (a : Nat) (v : Word) (s : State) : Except Stop State :=
  if a ≤ 32767 then .ok { s with mem := s.mem.write a v } else .error (.raise .invalidAddress)

/-! ### Registers -/

/-- `x[i]` (R26). -/
def State.reg (s : State) (i : RegIndex) : Word := s.x[i]

/-- `x[i] <- v` (R26). All eight registers behave alike (R32). -/
def State.setReg (s : State) (i : RegIndex) (v : Word) : State := { s with x := s.x.set i v }

/-! ### Program counter -/

/-- Sequential advance by the instruction's 1 + k words, without wrap (R126, R40). -/
def State.advance (s : State) (words : Nat) : State := { s with pc := s.pc + words }

/-- `pc <- target` (R26). -/
def State.jumpTo (s : State) (t : Nat) : State := { s with pc := t }

/-! ### Value stack -/

/-- `Push(v)` (R26). With a finite STACK_CAPACITY N, no step makes the depth N + 1 (R44). -/
def State.push (s : State) (v : Word) : Except Stop State :=
  match s.cfg.stackCapacity with
  | none => .ok { s with stack := s.stack ++ [v] }
  | some n =>
    if s.stack.length + 1 ≤ n then .ok { s with stack := s.stack ++ [v] } else .error (.stuck .stackFull)

/-- `Top()` (R26), none when `Empty()`. -/
def State.top (s : State) : Option Word := s.stack.getLast?

/-- The state with the top entry removed, the other half of `Pop()` (R26). -/
def State.dropTop (s : State) : State := { s with stack := s.stack.dropLast }

/-! ### The 15-bit reductions -/

/-- An exact natural number reduced modulo 32768 (R193). -/
def reduce15 (n : Nat) : Word := BitVec.ofNat 16 (n % 32768)

/-- `v & 0x7FFF`. -/
def mask15 (v : Word) : Word := v &&& 0x7FFF

/-! ### The two byte channels -/

/-- `OutByte(b)`, recorded in outlog (R53, R230). -/
def State.emit (s : State) (b : Byte) : State := { s with outlog := s.outlog ++ [b] }

/-- `InByte()` (R26, R231): the next byte and the state in which it is taken; with no byte, the wait of R55, or what
IN_EOF selects when the source has ended (R232). -/
def State.takeByte (s : State) : Except Stop (Byte × State) :=
  match s.input.pending with
  | b :: rest => .ok (b, { s with input := { s.input with pending := rest } })
  | [] =>
    if s.input.ended then
      match s.cfg.inEof with
      | .block      => .error (.stuck .waitingForInput)
      | .sentinel b => .ok (b, s)
      | .fail       => .error (.raise .inputExhausted)
    else .error (.stuck .waitingForInput)

/-! ### The end of a step -/

/-- Fault entry, `raise K(c)` (40_execution_loop.md R128, 60_exceptions.md R248): run and fault change, nothing else
does. R137 leaves open what becomes of input bytes the run never took; the model leaves them in `input` (log 24). -/
def State.raise (s : State) (k : FaultKind) (c : Nat) : State :=
  { s with run := .failed, fault := some { kind := k, cursor := c } }

/-- Clean end, `halt` (R129): only run changes. The machine has no return from a fault (R249). R137 leaves open what
becomes of input bytes the run never took; the model leaves them in `input` (log 24). -/
def State.halt (s : State) : State := { s with run := .halted }

/-- The outcome of a handler started in `s`: the state it built, or fault entry on `s` itself with the pc of the
failing instruction (R128: a fault keeps every value from before the step), or no step. -/
def conclude (s : State) : Except Stop State → Result
  | .ok t              => .next t
  | .error (.raise k)  => .next (s.raise k s.pc)
  | .error (.stuck f)  => .fault f

end Sys2Proof.Machine
end

