-- ==== Sys2Proof/Machine/Operands.lean ====
section
/-! DEFINITION. The two uses of an operand word, `resolve` and `dest` (30_encoding.md R97, R98), and the address
operands of R99, and the shape of an instruction with one destination and two value operands. -/

namespace Sys2Proof.Machine

/-- `resolve(w)` (R97). -/
def resolve (o : Operand) (s : State) : Except Stop Word :=
  match o with
  | .literal v  => .ok (v.setWidth 16)
  | .register i => .ok (s.reg i)
  | .invalid _  => .error (.raise .invalidOperand)

/-- `dest(w)` (R98): it reads no register value. -/
def dest (o : Operand) : Except Stop RegIndex :=
  match o with
  | .register i => .ok i
  | .literal _  => .error (.raise .invalidDestination)
  | .invalid _  => .error (.raise .invalidDestination)

/-- `checkTarget(t)` (43_control_transfer.md R170). -/
def checkTarget (t : Word) : Except Stop Nat :=
  if t.toNat ≤ 32767 then .ok t.toNat else .error (.raise .invalidAddress)

/-- A transfer target: resolved, then checked (R99, R170). -/
def resolveTarget (o : Operand) (s : State) : Except Stop Nat := do
  let t ← resolve o s
  checkTarget t

/-- `x[a] <- f(b, c)` in the check order of R125: dest a, resolve b, resolve c, the condition of `f`, the write. -/
def threeOperand (f : Word → Word → Except Stop Word) (a b c : Operand) (s : State) : Result := conclude s do
  let i ← dest a
  let vb ← resolve b s
  let vc ← resolve c s
  let v ← f vb vc
  return (s.setReg i v).advance 4

end Sys2Proof.Machine
end

