-- ==== Sys2Proof/Machine/Flags.lean ====
section
/-! DEFINITION. The machine has no flags or condition codes (10_state.md R45): a comparison writes 0 or 1 to a general
register, and a conditional jump tests a resolved value. These are the two. -/

namespace Sys2Proof.Machine

/-- `(p) ? 1 : 0`, the value EQ and GT write (R160, R161). -/
def truthWord (p : Bool) : Word := if p then 1 else 0

/-- The test of JT and JF: any value but zero is true, wide values too (R172, R173). -/
def isNonzero (v : Word) : Bool := decide (v ≠ 0)

end Sys2Proof.Machine
end

