-- ==== Sys2Proof/Machine/Arithmetic.lean ====
section
/-! DEFINITION. ADD, MULT, MOD (44_arithmetic.md): unsigned, reduced modulo 32768. -/

namespace Sys2Proof.Machine

/-- The exact sum, reduced (R190). -/
def addValue (vb vc : Word) : Word := reduce15 (vb.toNat + vc.toNat)

/-- The exact product, reduced (R191). -/
def multValue (vb vc : Word) : Word := reduce15 (vb.toNat * vc.toNat)

/-- The unsigned remainder, reduced; ArithmeticFault for the divisor 0 (R192). -/
def modValue (vb vc : Word) : Except Stop Word :=
  if vc = 0 then .error (.raise .arithmeticFault) else .ok (reduce15 (vb.toNat % vc.toNat))

/-- ADD a, b, c (R190). -/
def execAdd (a b c : Operand) (s : State) : Result := threeOperand (fun vb vc => .ok (addValue vb vc)) a b c s

/-- MULT a, b, c (R191). -/
def execMult (a b c : Operand) (s : State) : Result := threeOperand (fun vb vc => .ok (multValue vb vc)) a b c s

/-- MOD a, b, c (R192). -/
def execMod (a b c : Operand) (s : State) : Result := threeOperand modValue a b c s

end Sys2Proof.Machine
end

