-- ==== Sys2Proof/Machine/Bitwise.lean ====
section
/-! DEFINITION. AND, OR, NOT (45_bitwise.md): on the 16-bit resolved values, masked to 15 bits. -/

namespace Sys2Proof.Machine

/-- AND a, b, c (R210). -/
def execAnd (a b c : Operand) (s : State) : Result := threeOperand (fun vb vc => .ok (mask15 (vb &&& vc))) a b c s

/-- OR a, b, c (R211). -/
def execOr (a b c : Operand) (s : State) : Result := threeOperand (fun vb vc => .ok (mask15 (vb ||| vc))) a b c s

/-- NOT a, b (R212). -/
def execNot (a b : Operand) (s : State) : Result := conclude s do
  let i ← dest a
  let vb ← resolve b s
  return (s.setReg i (mask15 (~~~vb))).advance 3

end Sys2Proof.Machine
end

