-- ==== Sys2Proof/Machine/CharIO.lean ====
section
/-! DEFINITION. OUT and IN (47_io.md). -/

namespace Sys2Proof.Machine

/-- OUT a (R230): bits 7 to 0. -/
def execOut (a : Operand) (s : State) : Result := conclude s do
  let v ← resolve a s
  return (s.emit (v.setWidth 8)).advance 2

/-- IN a (R231): the destination is checked before the wait; the byte is zero-extended. -/
def execInp (a : Operand) (s : State) : Result := conclude s do
  let i ← dest a
  let (b, t) ← s.takeByte
  return (t.setReg i (b.setWidth 16)).advance 2

end Sys2Proof.Machine
end

