-- ==== Sys2Proof/Machine/Compare.lean ====
section
/-! DEFINITION. EQ and GT (42_compare.md): unsigned, on the full 16-bit resolved values. -/

namespace Sys2Proof.Machine

/-- EQ a, b, c (R160). -/
def execEq (a b c : Operand) (s : State) : Result :=
  threeOperand (fun vb vc => .ok (truthWord (decide (vb = vc)))) a b c s

/-- GT a, b, c (R161): strict. -/
def execGt (a b c : Operand) (s : State) : Result :=
  threeOperand (fun vb vc => .ok (truthWord (decide (vb.toNat > vc.toNat)))) a b c s

end Sys2Proof.Machine
end

