-- ==== Sys2Proof/Machine/Control.lean ====
section
/-! DEFINITION. JMP, JT, JF, CALL, RET (43_control_transfer.md). -/

namespace Sys2Proof.Machine

/-- JMP a (R171). -/
def execJmp (a : Operand) (s : State) : Result := conclude s do
  let t ← resolveTarget a s
  return s.jumpTo t

/-- The shape of JT and JF: b is resolved and checked only when the branch is taken (R172, R173). -/
def branchWhen (taken : Word → Bool) (a b : Operand) (s : State) : Result := conclude s do
  let v ← resolve a s
  if taken v then
    let t ← resolveTarget b s
    return s.jumpTo t
  else
    return s.advance 3

/-- JT a, b (R172). -/
def execJt (a b : Operand) (s : State) : Result := branchWhen isNonzero a b s

/-- JF a, b (R173). -/
def execJf (a b : Operand) (s : State) : Result := branchWhen (fun v => !isNonzero v) a b s

/-- CALL a (R174): the target is resolved and checked before the push; the return address is pc + 2. -/
def execCall (a : Operand) (s : State) : Result := conclude s do
  let t ← resolveTarget a s
  let u ← s.push (BitVec.ofNat 16 (s.pc + 2))
  return u.jumpTo t

/-- RET (R175): a clean end on an empty stack; the entry is checked before it is popped. -/
def execRet (s : State) : Result := conclude s do
  match s.top with
  | none   => return s.halt
  | some e =>
    let t ← checkTarget e
    return s.dropTop.jumpTo t

end Sys2Proof.Machine
end

