-- ==== Sys2Proof/Machine/Loop.lean ====
section
/-! DEFINITION. HALT, NOOP and the unknown opcodes (40_execution_loop.md R131, R132, R134). -/

namespace Sys2Proof.Machine

/-- HALT (R131). -/
def execHalt (s : State) : Result := conclude s (.ok s.halt)

/-- NOOP (R132). -/
def execNoop (s : State) : Result := conclude s (.ok (s.advance 1))

/-- An unknown opcode (R134): a one-word no-op, whatever the word (R103). -/
def execUnknown (_op : Word) (s : State) : Result := conclude s (.ok (s.advance 1))

end Sys2Proof.Machine
end

