-- ==== Sys2Proof/Machine/MemAccess.lean ====
section
/-! DEFINITION. RMEM and WMEM (46_memory.md). -/

namespace Sys2Proof.Machine

/-- Widening on RMEM (R223). -/
def widen (cfg : Config) (v : Word) : Word :=
  match cfg.rmemWide with
  | .storeRaw => v
  | .mask15   => mask15 v

/-- RMEM a, b (R220). -/
def execRmem (a b : Operand) (s : State) : Result := conclude s do
  let i ← dest a
  let addr ← resolve b s
  let v ← memRead addr.toNat s
  return (s.setReg i (widen s.cfg v)).advance 3

/-- WMEM a, b (R221): the whole 16-bit value, unmasked. -/
def execWmem (a b : Operand) (s : State) : Result := conclude s do
  let addr ← resolve a s
  let v ← resolve b s
  let t ← memWrite addr.toNat v s
  return t.advance 3

end Sys2Proof.Machine
end

