-- ==== Sys2Proof/Machine/MoveStack.lean ====
section
/-! DEFINITION. SET, PUSH, POP (41_move_and_stack.md). -/

namespace Sys2Proof.Machine

/-- SET a, b (R150). -/
def execSet (a b : Operand) (s : State) : Result := conclude s do
  let i ← dest a
  let v ← resolve b s
  return (s.setReg i v).advance 3

/-- PUSH a (R151). -/
def execPush (a : Operand) (s : State) : Result := conclude s do
  let v ← resolve a s
  let t ← s.push v
  return t.advance 2

/-- POP a (R152). -/
def execPop (a : Operand) (s : State) : Result := conclude s do
  let i ← dest a
  match s.top with
  | none   => .error (.raise .stackUnderflow)
  | some v => return (s.dropTop.setReg i v).advance 2

end Sys2Proof.Machine
end

