-- ==== Sys2Proof/WellFormed.lean ====
section
/-! DEFINITION. Which terms of `Instr` stand for words: an invalid operand holds a word of 32776 or above (R95), an
unknown opcode is 22 or above (R102). -/

namespace Sys2Proof

def Operand.wf : Operand → Bool
  | .literal _  => true
  | .register _ => true
  | .invalid w  => decide (32776 ≤ w.toNat)

/-- The operands of an instruction, in the order a, b, c of R93. -/
def Instr.operands : Instr → List Operand
  | .halt      => []
  | .set a b   => [a, b]
  | .push a    => [a]
  | .pop a     => [a]
  | .eq a b c  => [a, b, c]
  | .gt a b c  => [a, b, c]
  | .jmp a     => [a]
  | .jt a b    => [a, b]
  | .jf a b    => [a, b]
  | .add a b c => [a, b, c]
  | .mult a b c => [a, b, c]
  | .mod a b c => [a, b, c]
  | .and a b c => [a, b, c]
  | .or a b c  => [a, b, c]
  | .not a b   => [a, b]
  | .rmem a b  => [a, b]
  | .wmem a b  => [a, b]
  | .call a    => [a]
  | .ret       => []
  | .out a     => [a]
  | .inp a     => [a]
  | .noop      => []
  | .unknown _ => []

/-- An opcode word that R93 does not list (R102); the 22 named opcodes need no check of their own. -/
def Instr.opcodeWf : Instr → Bool
  | .unknown op => decide (22 ≤ op.toNat)
  | .halt | .set _ _ | .push _ | .pop _ | .eq _ _ _ | .gt _ _ _ | .jmp _ | .jt _ _ | .jf _ _ | .add _ _ _
  | .mult _ _ _ | .mod _ _ _ | .and _ _ _ | .or _ _ _ | .not _ _ | .rmem _ _ | .wmem _ _ | .call _ | .ret
  | .out _ | .inp _ | .noop => true

def Instr.wf (i : Instr) : Bool :=
  i.opcodeWf && i.operands.all Operand.wf

end Sys2Proof
end

