-- ==== Sys2Proof/Decode.lean ====
section
/-! DEFINITION. The decoder and the encoder of 30_encoding.md, over lists of words (R90: one field is one word). -/

namespace Sys2Proof

/-- Why a list of words holds no whole instruction. No opcode word is illegal (R104), so shortness is the only
reason. -/
inductive DecodeError where
  /-- The list is empty. -/
  | noOpcodeWord
  /-- Fewer operand words follow than R93 gives the opcode. -/
  | missingOperandWord
  deriving DecidableEq, Repr

/-- The class of an operand word (R95, R96). -/
def operandOf (w : Word) : Operand :=
  if w.toNat ≤ 32767 then .literal (w.setWidth 15)
  else if h : w.toNat ≤ 32775 then .register ⟨w.toNat - 32768, by omega⟩
  else .invalid w

/-- The operand count k of R93, found from the opcode word alone (R94). -/
def arity (op : Word) : Nat :=
  match op.toNat with
  | 0 => 0
  | 1 => 2
  | 2 => 1
  | 3 => 1
  | 4 => 3
  | 5 => 3
  | 6 => 1
  | 7 => 2
  | 8 => 2
  | 9 => 3
  | 10 => 3
  | 11 => 3
  | 12 => 3
  | 13 => 3
  | 14 => 2
  | 15 => 2
  | 16 => 2
  | 17 => 1
  | 18 => 0
  | 19 => 1
  | 20 => 1
  | 21 => 0
  | _ => 0

abbrev Decoded := Except DecodeError (Instr × List Word)

/-- Format W0 (R91): no operand word is read. -/
def formatW0 (i : Instr) (ws : List Word) : Decoded := .ok (i, ws)

/-- Format W1 (R91). -/
def formatW1 (mk : Operand → Instr) : List Word → Decoded
  | a :: ws => .ok (mk (operandOf a), ws)
  | _ => .error .missingOperandWord

/-- Format W2 (R91). -/
def formatW2 (mk : Operand → Operand → Instr) : List Word → Decoded
  | a :: b :: ws => .ok (mk (operandOf a) (operandOf b), ws)
  | _ => .error .missingOperandWord

/-- Format W3 (R91). -/
def formatW3 (mk : Operand → Operand → Operand → Instr) : List Word → Decoded
  | a :: b :: c :: ws => .ok (mk (operandOf a) (operandOf b) (operandOf c), ws)
  | _ => .error .missingOperandWord

/-- Dispatch on the opcode word's integer value (R92, R93, R124); every value outside 0 to 21 is unknown (R102). -/
def decodeOpcode (op : Word) (ws : List Word) : Decoded :=
  match op.toNat with
  | 0 => formatW0 .halt ws
  | 1 => formatW2 .set ws
  | 2 => formatW1 .push ws
  | 3 => formatW1 .pop ws
  | 4 => formatW3 .eq ws
  | 5 => formatW3 .gt ws
  | 6 => formatW1 .jmp ws
  | 7 => formatW2 .jt ws
  | 8 => formatW2 .jf ws
  | 9 => formatW3 .add ws
  | 10 => formatW3 .mult ws
  | 11 => formatW3 .mod ws
  | 12 => formatW3 .and ws
  | 13 => formatW3 .or ws
  | 14 => formatW2 .not ws
  | 15 => formatW2 .rmem ws
  | 16 => formatW2 .wmem ws
  | 17 => formatW1 .call ws
  | 18 => formatW0 .ret ws
  | 19 => formatW1 .out ws
  | 20 => formatW1 .inp ws
  | 21 => formatW0 .noop ws
  | _ => formatW0 (.unknown op) ws

/-- The first instruction of a list of words, and the words after it. -/
def decode : List Word → Decoded
  | [] => .error .noOpcodeWord
  | op :: ws => decodeOpcode op ws

/-- The word of an operand (R95). -/
def Operand.word : Operand → Word
  | .literal v  => v.setWidth 16
  | .register i => BitVec.ofNat 16 (32768 + i.val)
  | .invalid w  => w

/-- The opcode word of R93. -/
def Instr.opcode : Instr → Word
  | .halt       => 0
  | .set _ _    => 1
  | .push _     => 2
  | .pop _      => 3
  | .eq _ _ _   => 4
  | .gt _ _ _   => 5
  | .jmp _      => 6
  | .jt _ _     => 7
  | .jf _ _     => 8
  | .add _ _ _  => 9
  | .mult _ _ _ => 10
  | .mod _ _ _  => 11
  | .and _ _ _  => 12
  | .or _ _ _   => 13
  | .not _ _    => 14
  | .rmem _ _   => 15
  | .wmem _ _   => 16
  | .call _     => 17
  | .ret        => 18
  | .out _      => 19
  | .inp _      => 20
  | .noop       => 21
  | .unknown op => op

/-- The words of an instruction: the opcode word, then the operand words in order a, b, c (R90, R91). -/
def encode (i : Instr) : List Word :=
  i.opcode :: i.operands.map Operand.word

/-- The four words of an instruction given as one number, bit 0 the least significant bit of the first word; the
bits from `nbits` on are 0. Four words are the longest instruction (R90). -/
def wordsOfNumber (nbits w : Nat) : List Word :=
  let v := w % 2 ^ nbits
  [BitVec.ofNat 16 v, BitVec.ofNat 16 (v / 2 ^ 16), BitVec.ofNat 16 (v / 2 ^ 32), BitVec.ofNat 16 (v / 2 ^ 48)]

/-- The instruction the decoder reads from a number that holds its words. -/
def decodeTableWord (nbits w : Nat) : Option Instr :=
  match decode (wordsOfNumber nbits w) with
  | .ok (i, _) => some i
  | .error _   => none

end Sys2Proof
end

