-- ==== Sys2Proof/Machine/Fetch.lean ====
section
/-! DEFINITION. The fetch of 40_execution_loop.md: R121, R122, R123. -/

namespace Sys2Proof.Machine

/-- A step exists only when run is RUNNING (R121, R130). -/
def checkRunning (s : State) : Except Stop Unit :=
  match s.run with
  | .running => .ok ()
  | .halted  => .error (.stuck .haltedIsTerminal)
  | .failed  => .error (.stuck .failedIsTerminal)

/-- `k` raw words from an address on, in order (R123). -/
def readWords (s : State) : Nat → Nat → Except Stop (List Word)
  | _, 0 => .ok []
  | a, k + 1 => do
    let w ← memRead a s
    let ws ← readWords s (a + 1) k
    return w :: ws

/-- The instruction of the fetched words. They are as many as the opcode asks for, so the decoder never finds them
short (the lemma `fetched_words_decode`); had it, the missing word would be one that lies beyond memory: log 18. -/
def decodeFetched (ws : List Word) : Except Stop Instr :=
  match decode ws with
  | .ok (i, _) => .ok i
  | .error _   => .error (.raise .invalidAddress)

/-- The instruction at pc: the opcode word (R122), then the operand words (R123). -/
def fetchInstr (s : State) : Except Stop Instr := do
  checkRunning s
  let op ← memRead s.pc s
  let ws ← readWords s (s.pc + 1) (arity op)
  decodeFetched (op :: ws)

/-- The given words stored from an address on; one that would lie beyond 32767 is dropped. -/
def placeWords (m : Memory) : Nat → List Word → Memory
  | _, [] => m
  | a, w :: ws => placeWords (if a ≤ 32767 then m.write a w else m) (a + 1) ws

/-- The state in which the given words stand at pc and the core is running (log 15). -/
def State.withWordsAtPc (s : State) (ws : List Word) : State :=
  { s with mem := placeWords s.mem s.pc ws, run := .running, fault := none }

end Sys2Proof.Machine
end

