-- ==== Sys2Proof/Machine/Step.lean ====
section
/-! DEFINITION. One step (40_execution_loop.md R120, R135), and the state that places an instruction where it is
fetched. -/

namespace Sys2Proof.Machine

/-- One whole instruction (R135). -/
def step (s : State) : Host.Outcome State Fault Refusal :=
  match fetchInstr s with
  | .ok i    => exec i s
  | .error e => conclude s (.error e)

/-- `s` with the instruction of a table word stored at pc, running. -/
def State.withFetchWord (s : State) (nbits w : Nat) : State :=
  s.withWordsAtPc (wordsOfNumber nbits w)

end Sys2Proof.Machine
end

