-- ==== Sys2Proof/Machine/Assembler.lean ====
section
/-! DEFINITION. The assembler text form of 30_encoding.md R108. Syntax has no effect on the machine
(92_eei_decisions.md D13): nothing of the step uses this file. What R108 leaves open is in log 19. -/

namespace Sys2Proof.Machine

inductive AsmOperand where
  | register (i : RegIndex)
  | number (n : Nat)
  | char (c : Char)
  | label (name : Text)
  deriving DecidableEq, Repr

inductive AsmItem where
  /-- `name:` -/
  | label (name : Text)
  /-- A mnemonic, given by its opcode, and its operands in order. -/
  | instr (opcode : Word) (args : List AsmOperand)
  /-- `.word n` -/
  | word (n : Nat)
  deriving DecidableEq, Repr

/-! ### From items to words -/

/-- The words an item takes. -/
def AsmItem.size : AsmItem → Nat
  | .label _      => 0
  | .instr _ args => 1 + args.length
  | .word _       => 1

/-- Each label with the address of the statement it stands before; none when a name is defined twice. -/
def labelTable : Nat → List AsmItem → Option (List (Text × Nat))
  | _, [] => some []
  | a, .label n :: is =>
    match labelTable a is with
    | none => none
    | some ls => if ls.any (fun l => decide (l.1 = n)) then none else some ((n, a) :: ls)
  | a, .instr op args :: is => labelTable (a + (AsmItem.instr op args).size) is
  | a, .word n :: is => labelTable (a + (AsmItem.word n).size) is

/-- A value of 0 to 32767 encodes as itself. -/
def literalWord (n : Nat) : Option Word := if n ≤ 32767 then some (BitVec.ofNat 16 n) else none

/-- The ASCII code of a character; a character outside ASCII has none. -/
def charWord (c : Char) : Option Word := if c.toNat ≤ 127 then literalWord c.toNat else none

/-- The word of an operand: a register, a number, a character's code, or the address of a label. -/
def AsmOperand.word (labels : List (Text × Nat)) : AsmOperand → Option Word
  | .register i => some (BitVec.ofNat 16 (32768 + i.val))
  | .number n   => literalWord n
  | .char c     => charWord c
  | .label name =>
    match labels.find? (fun l => decide (l.1 = name)) with
    | none => none
    | some l => literalWord l.2

/-- The operand words, in order. -/
def operandWords (labels : List (Text × Nat)) : List AsmOperand → Option (List Word)
  | [] => some []
  | o :: os =>
    match o.word labels, operandWords labels os with
    | some w, some ws => some (w :: ws)
    | _, _ => none

/-- The words of one item: for a statement with as many operands as R93 gives its opcode, the opcode word and then the
operand words. -/
def AsmItem.words (labels : List (Text × Nat)) : AsmItem → Option (List Word)
  | .label _ => some []
  | .instr op args =>
    if args.length = arity op then
      match operandWords labels args with
      | none => none
      | some ws => some (op :: ws)
    else none
  | .word n => if n ≤ 65535 then some [BitVec.ofNat 16 n] else none

def itemsWords (labels : List (Text × Nat)) : List AsmItem → Option (List Word)
  | [] => some []
  | i :: is =>
    match i.words labels, itemsWords labels is with
    | some ws, some vs => some (ws ++ vs)
    | _, _ => none

/-- The image of a list of items, the first at address 0. -/
def assembleItems (is : List AsmItem) : Option (List Word) :=
  match labelTable 0 is with
  | none => none
  | some labels => itemsWords labels is

/-! ### From an instruction to items -/

/-- The operand as the text form spells it, none for an invalid word. -/
def asmOperandOf : Operand → Option AsmOperand
  | .literal v  => some (.number v.toNat)
  | .register i => some (.register i)
  | .invalid _  => none

def asmOperandsOf : List Operand → Option (List AsmOperand)
  | [] => some []
  | o :: os =>
    match asmOperandOf o, asmOperandsOf os with
    | some x, some xs => some (x :: xs)
    | _, _ => none

/-- The statement of an instruction, or `.word`s for what no mnemonic can spell: an unknown opcode or an invalid
operand word. -/
def disassemble (i : Instr) : List AsmItem :=
  match decide (i.opcode.toNat ≤ 21), asmOperandsOf i.operands with
  | true, some args => [.instr i.opcode args]
  | _, _ => (encode i).map (fun w => .word w.toNat)

/-! ### From items to text -/

/-- The character of a decimal digit. -/
def digitChar (d : Nat) : Char := Char.ofNat (48 + d)

/-- A number in decimal. The first argument bounds the digits after the first; the number itself is enough. -/
def decimalText : Nat → Nat → Text
  | 0, n => [digitChar n]
  | k + 1, n => if n < 10 then [digitChar n] else decimalText k (n / 10) ++ [digitChar (n % 10)]

/-- The apostrophe of a character operand. -/
def apostrophe : Char := Char.ofNat 39

/-- The operand as R108 writes it. -/
def AsmOperand.text : AsmOperand → Text
  | .register i => ['R', digitChar i.val]
  | .number n   => decimalText n n
  | .char c     => [apostrophe, c, apostrophe]
  | .label name => name

/-- Operands separated by commas. -/
def operandsText : List AsmOperand → Text
  | [] => []
  | [o] => o.text
  | o :: os => o.text ++ ',' :: operandsText os

/-- The mnemonics of R93, each at the place of its opcode. -/
def mnemonics : List Text :=
  ["HALT".toList, "SET".toList, "PUSH".toList, "POP".toList, "EQ".toList, "GT".toList, "JMP".toList, "JT".toList,
   "JF".toList, "ADD".toList, "MULT".toList, "MOD".toList, "AND".toList, "OR".toList, "NOT".toList, "RMEM".toList,
   "WMEM".toList, "CALL".toList, "RET".toList, "OUT".toList, "IN".toList, "NOOP".toList]

/-- The item as R108 writes it. -/
def AsmItem.text : AsmItem → Text
  | .label name    => name ++ [':']
  | .instr op args => (mnemonics[op.toNat]?).getD [] ++ ' ' :: operandsText args
  | .word n        => ".word ".toList ++ decimalText n n

/-- A program text, each item on a line of its own. -/
def itemsText : List AsmItem → Text
  | [] => []
  | i :: is => i.text ++ '\n' :: itemsText is

/-! ### From text to items -/

inductive Token where
  | atom (t : Text)
  | char (c : Char)
  | comma
  | colon
  | separator
  /-- An apostrophe that begins no character operand. -/
  | malformed
  deriving DecidableEq, Repr

/-- A finished atom, kept reversed while it is read, in front of the tokens after it. -/
def endAtom (acc : Text) (ts : List Token) : List Token :=
  if acc.isEmpty then ts else .atom acc.reverse :: ts

/-- The tokens of a text. The first argument says that a comment is being skipped, the second is the atom read so
far. -/
def lex : Bool → Text → List Char → List Token
  | _, acc, [] => endAtom acc []
  | true, _, c :: r => if c = '\n' then .separator :: lex false [] r else lex true [] r
  | false, acc, c :: r =>
    if c = apostrophe then
      match r with
      | d :: q :: r' => endAtom acc ((if q = apostrophe then .char d else .malformed) :: lex false [] r')
      | _ => endAtom acc [.malformed]
    else if c = '#' then endAtom acc (lex true [] r)
    else if c = '\n' then endAtom acc (.separator :: lex false [] r)
    else if c = ';' then endAtom acc (.separator :: lex false [] r)
    else if c = ',' then endAtom acc (.comma :: lex false [] r)
    else if c = ':' then endAtom acc (.colon :: lex false [] r)
    else if c.isWhitespace then endAtom acc (lex false [] r)
    else lex false (c :: acc) r

/-- The value of a digit in base 16. -/
def digitValue (c : Char) : Option Nat :=
  if '0' ≤ c ∧ c ≤ '9' then some (c.toNat - 48)
  else if 'a' ≤ c ∧ c ≤ 'f' then some (c.toNat - 87)
  else if 'A' ≤ c ∧ c ≤ 'F' then some (c.toNat - 55)
  else none

/-- Digits in a base, the number so far first. -/
def digits (base : Nat) : Nat → Text → Option Nat
  | n, [] => some n
  | n, c :: cs =>
    match digitValue c with
    | none => none
    | some d => if d < base then digits base (base * n + d) cs else none

/-- A decimal number, or a hexadecimal one with the prefix `0x`. -/
def numberOf : Text → Option Nat
  | '0' :: 'x' :: c :: cs => digits 16 0 (c :: cs)
  | c :: cs => digits 10 0 (c :: cs)
  | [] => none

/-- `R0` to `R7`. -/
def registerOf : Text → Option RegIndex
  | ['R', c] =>
    match digitValue c with
    | none => none
    | some d => if h : d < 8 then some ⟨d, h⟩ else none
  | _ => none

/-- An operand: a character, a register, a number, or else a label. -/
def argumentOf : Token → Option AsmOperand
  | .char c => some (.char c)
  | .atom t =>
    match registerOf t, numberOf t with
    | some i, _ => some (.register i)
    | none, some n => some (.number n)
    | none, none => if (t.head?.map Char.isDigit).getD true then none else some (.label t)
  | .comma => none
  | .colon => none
  | .separator => none
  | .malformed => none

/-- Operands separated by commas. -/
def argumentsOf : List Token → Option (List AsmOperand)
  | [] => some []
  | [t] => (argumentOf t).map (fun o => [o])
  | t :: .comma :: ts =>
    match argumentOf t, argumentsOf ts with
    | some o, some (p :: os) => some (o :: p :: os)
    | _, _ => none
  | _ => none

/-- The opcode of a mnemonic. -/
def opcodeOf (m : Text) : Option Word :=
  (mnemonics.findIdx? (fun n => decide (n = m))).map (BitVec.ofNat 16)

/-- One statement: its mnemonic and the tokens after it. -/
def statementOf (m : Text) (ts : List Token) : Option AsmItem :=
  if m = ".word".toList then
    match ts with
    | [.atom t] => (numberOf t).map AsmItem.word
    | _ => none
  else
    match opcodeOf m, argumentsOf ts with
    | some op, some args => some (.instr op args)
    | _, _ => none

/-- The labels of a line, and its statement if it has one. -/
def lineItems : List Token → Option (List AsmItem)
  | [] => some []
  | .atom n :: .colon :: ts =>
    match lineItems ts with
    | none => none
    | some is => some (.label n :: is)
  | .atom m :: ts => (statementOf m ts).map (fun i => [i])
  | _ => none

/-- The tokens of each line. -/
def tokenLines : List Token → List (List Token)
  | [] => [[]]
  | .separator :: ts => [] :: tokenLines ts
  | t :: ts =>
    match tokenLines ts with
    | [] => [[t]]
    | l :: ls => (t :: l) :: ls

def linesItems : List (List Token) → Option (List AsmItem)
  | [] => some []
  | l :: ls =>
    match lineItems l, linesItems ls with
    | some is, some js => some (is ++ js)
    | _, _ => none

/-- The image of a program text. -/
def assemble (text : Text) : Option (List Word) :=
  match linesItems (tokenLines (lex false [] text)) with
  | none => none
  | some is => assembleItems is

end Sys2Proof.Machine
end

