-- ==== Sys2Proof/Machine/HostInterface.lean ====
section
/-! DEFINITION. What the host can do and see (70_reset_and_hazards.md R284): LOAD, the bytes of IN, STATUS, TERMINATE
and the result of a run. -/

namespace Sys2Proof.Machine

/-! ### LOAD -/

/-- The state a run with the given parameters and image starts from (R270, R271). An image of more than 32768 words is
refused: no step is taken and STATUS reports FAILED with ImageTooLarge and cursor 0 (R272, R246; log 11). -/
def State.load (cfg : Config) (image : List Word) : State :=
  if image.length ≤ 32768 then { State.reset with mem := Memory.fill 0 image, cfg := cfg }
  else ({ State.reset with cfg := cfg }).raise .imageTooLarge 0

/-- `byte0 | (byte1 << 8)` (R273). -/
def wordOfBytes (byte0 byte1 : Byte) : Word := byte0.setWidth 16 ||| (byte1.setWidth 16 <<< 8)

/-- The words of an image file, low byte first (R273); none for a file of odd length (R274). -/
def imageOfBytes : List Byte → Option (List Word)
  | [] => some []
  | [_] => none
  | b0 :: b1 :: bs =>
    match imageOfBytes bs with
    | none => none
    | some ws => some (wordOfBytes b0 b1 :: ws)

/-- The start of a run from an image file; a file of odd length has no initial state (R274). -/
def State.loadFile (cfg : Config) (bytes : List Byte) : Option State :=
  match imageOfBytes bytes with
  | none => none
  | some ws => some (State.load cfg ws)

/-! ### IN and TERMINATE -/

/-- What the host does between two instructions of a run (R284). -/
inductive HostEvent where
  /-- One more byte for the input source (R22, R54). -/
  | supply (b : Byte)
  /-- The source ends and can never supply another byte (R232). -/
  | endInput
  /-- The host stops the core (R24). -/
  | terminate
  deriving DecidableEq, Repr

/-- The state after one more byte arrives; an ended source supplies none (R232, log 21). -/
def State.supply (s : State) (b : Byte) : State :=
  if s.input.ended then s else { s with input := { s.input with pending := s.input.pending ++ [b] } }

/-- The state after the source ends (R232). -/
def State.endInput (s : State) : State := { s with input := { s.input with ended := true } }

/-- A host event at an instruction boundary; after TERMINATE no state is kept (R24, R276; log 12). It does not look at
run: that the source can still grow or end after the run has ended, which R137 leaves open, is the model's choice
(log 24). -/
def hostMove (e : HostEvent) (s : State) : Option State :=
  match e with
  | .supply b  => some (s.supply b)
  | .endInput  => some s.endInput
  | .terminate => none

/-- The core is waiting for input (10_state.md R55): run is RUNNING, the instruction at pc is IN, its destination
passes, and no byte is available. -/
def State.waiting (s : State) : Bool :=
  match fetchInstr s with
  | .ok (.inp (.register _)) =>
    s.input.pending.isEmpty && (!s.input.ended || decide (s.cfg.inEof = .block))
  | _ => false

/-! ### STATUS and the result of a run -/

/-- What the STATUS interface shows (R23). -/
structure Status where
  run   : RunState
  fault : Option FaultRecord
  deriving DecidableEq, Repr

def State.status (s : State) : Status := { run := s.run, fault := s.fault }

/-- The number of a run state (R51). -/
def RunState.code : RunState → Nat
  | .running => 0
  | .halted  => 1
  | .failed  => 2

/-- The number of a fault kind (R240). -/
def FaultKind.code : FaultKind → Nat
  | .invalidOperand     => 1
  | .invalidDestination => 2
  | .stackUnderflow     => 3
  | .arithmeticFault    => 4
  | .invalidAddress     => 5
  | .imageTooLarge      => 6
  | .inputExhausted     => 7

/-- The two outcomes of a run that the host sees (40_execution_loop.md R136). -/
inductive RunResult where
  | clean
  | fatal (kind : FaultKind) (cursor : Nat)
  deriving DecidableEq, Repr

/-- The result of a run that has ended, none while it has not (R136, R137). -/
def State.result (s : State) : Option RunResult :=
  match s.run with
  | .running => none
  | .halted  => some .clean
  | .failed  =>
    match s.fault with
    | none   => none
    | some f => some (.fatal f.kind f.cursor)

end Sys2Proof.Machine
end

