-- ==== Sys2Proof/Safety.lean ====
section
/-! DEFINITION. What holds in every state a run can be in, and the terms the statements are written in: which operand
of an instruction is its destination, which cell it stores to, and fault entry. -/

namespace Sys2Proof.Machine

/-- The invariant of a run: memory is canonical (R70), pc is 0 to 32768 (R37), the stack fits STACK_CAPACITY (R44),
fault is set exactly when run is FAILED and records the pc (R52, R128), InputExhausted only under IN_EOF = Fail
(R258). -/
structure State.Inv (s : State) : Prop where
  memoryCanonical : Memory.wf s.mem
  pcInRange       : s.pc ≤ 32768
  stackFits       : ∀ n ∈ s.cfg.stackCapacity, s.stack.length ≤ n
  faultIffFailed  : s.fault.isSome = true ↔ s.run = .failed
  faultAtPc       : ∀ f ∈ s.fault, f.cursor = s.pc ∧ (f.kind = .inputExhausted → s.cfg.inEof = .fail)

/-- RMEM_WIDE is Mask15 and no register or stack entry exceeds the bound. It is 32767, the invariant of R56, until a CALL
at 32766 pushes the return address 32768 (R174), and 32768 from then on (log 13). -/
structure State.NarrowData (s : State) (bound : Nat) : Prop where
  narrowing : s.cfg.rmemWide = .mask15
  registers : ∀ i, (s.reg i).toNat ≤ bound
  entries   : ∀ v ∈ s.stack, v.toNat ≤ bound

/-- `i` in `s` takes fault entry with kind `k` (R128): run and fault change, nothing else does. -/
def Raises (i : Instr) (s : State) (k : FaultKind) : Prop :=
  exec i s = .next { s with run := .failed, fault := some { kind := k, cursor := s.pc } }

/-- The destination operand of an instruction, the D of R93. -/
def destinationOperand : Instr → Option Operand
  | .set a _ | .pop a | .eq a _ _ | .gt a _ _ | .add a _ _ | .mult a _ _ | .mod a _ _ | .and a _ _ | .or a _ _
  | .not a _ | .rmem a _ | .inp a => some a
  | .halt | .push _ | .jmp _ | .jt _ _ | .jf _ _ | .wmem _ _ | .call _ | .ret | .out _ | .noop | .unknown _ => none

/-- The value operands that an instruction always resolves, in order: the V of R93, without the lazy target of JT and
JF. -/
def valueOperands : Instr → List Operand
  | .set _ b | .not _ b | .rmem _ b => [b]
  | .eq _ b c | .gt _ b c | .add _ b c | .mult _ b c | .mod _ b c | .and _ b c | .or _ b c => [b, c]
  | .push a | .jmp a | .call a | .out a => [a]
  | .jt a _ | .jf a _ => [a]
  | .wmem a b => [a, b]
  | .halt | .pop _ | .ret | .inp _ | .noop | .unknown _ => []

/-- The address an instruction stores to: WMEM's first operand, resolved (R221). -/
def storeAddress (i : Instr) (s : State) : Option Nat :=
  match i with
  | .wmem a _ =>
    match resolve a s with
    | .ok v    => some v.toNat
    | .error _ => none
  | .halt | .set _ _ | .push _ | .pop _ | .eq _ _ _ | .gt _ _ _ | .jmp _ | .jt _ _ | .jf _ _ | .add _ _ _
  | .mult _ _ _ | .mod _ _ _ | .and _ _ _ | .or _ _ _ | .not _ _ | .rmem _ _ | .call _ | .ret | .out _ | .inp _
  | .noop | .unknown _ => none

/-- An instruction whose next pc is not pc + 1 + k whenever it completes (R39). -/
def transfersControl : Instr → Bool
  | .halt | .jmp _ | .jt _ _ | .jf _ _ | .call _ | .ret => true
  | .set _ _ | .push _ | .pop _ | .eq _ _ _ | .gt _ _ _ | .add _ _ _ | .mult _ _ _ | .mod _ _ _ | .and _ _ _
  | .or _ _ _ | .not _ _ | .rmem _ _ | .wmem _ _ | .out _ | .inp _ | .noop | .unknown _ => false

/-- The words of an instruction stand in memory at pc. -/
def InstrAtPc (s : State) (i : Instr) : Prop :=
  s.pc + (encode i).length ≤ 32768 ∧
  ∀ j, (h : j < (encode i).length) → s.mem.read (s.pc + j) = (encode i)[j]

/-- The faults of an instruction with operands D, V, V before its own conditions (R125, R247). -/
def ThreeOperandFaults (mk : Operand → Operand → Operand → Instr) : Prop :=
  (∀ a b c s, (∀ d, a ≠ .register d) → Raises (mk a b c) s .invalidDestination) ∧
  (∀ d w c s, Raises (mk (.register d) (.invalid w) c) s .invalidOperand) ∧
  (∀ d b w s vb, resolve b s = .ok vb → Raises (mk (.register d) b (.invalid w)) s .invalidOperand)

end Sys2Proof.Machine
end

