-- ==== Sys2Proof/Certificates/Slice0/Obligations.lean ====
section
/-! DEFINITION. The statements for the provers, from the numbered rules of spec/. Each docstring names the rules it
formalises. -/

open Sys2Proof Sys2Proof.Machine

/-! ### Encoding (30_encoding.md) -/

/-- Every well-formed instruction is what its own words decode to, whatever words follow (R90 to R95). -/
def Obligations.DecodeOfEncodeIsTheInstruction : Prop :=
  ∀ (i : Instr) (rest : List Word), i.wf = true → decode (encode i ++ rest) = .ok (i, rest)

/-- Every decoded instruction is well-formed, and its encoding gives back the words it was read from (R90 to R95). -/
def Obligations.EncodeOfDecodeIsTheWords : Prop :=
  ∀ (ws : List Word) (i : Instr) (rest : List Word),
    decode ws = .ok (i, rest) → i.wf = true ∧ encode i ++ rest = ws

/-- The length of an instruction is 1 + k(opcode), found from the opcode word alone (R94, which the spec derives from R90
and R93), and the only words that decode to nothing are too few. -/
def Obligations.LengthComesFromTheOpcodeWordAlone : Prop :=
  ∀ (op : Word) (ws : List Word),
    (∀ i rest, decode (op :: ws) = .ok (i, rest) →
      (encode i).length = 1 + arity op ∧ rest = ws.drop (arity op)) ∧
    ((∃ i rest, decode (op :: ws) = .ok (i, rest)) ↔ arity op ≤ ws.length)

/-- R110 and one word sequence of each family, written out from R93 and R95. -/
def Obligations.SpecWordsDecodeToTheirInstructions : Prop :=
  decode [9, 32768, 5, 6] = .ok (.add (.register 0) (.literal 5) (.literal 6), []) ∧
  decode [19, 32768] = .ok (.out (.register 0), []) ∧
  decode [1, 32771, 32775] = .ok (.set (.register 3) (.register 7), []) ∧
  decode [5, 32770, 6, 5] = .ok (.gt (.register 2) (.literal 6) (.literal 5), []) ∧
  decode [7, 32768, 9] = .ok (.jt (.register 0) (.literal 9), []) ∧
  decode [14, 32768, 21845] = .ok (.not (.register 0) (.literal 21845), []) ∧
  decode [16, 32769, 32770] = .ok (.wmem (.register 1) (.register 2), []) ∧
  decode [15, 32768, 32776] = .ok (.rmem (.register 0) (.invalid 32776), []) ∧
  decode [22, 32768] = .ok (.unknown 22, [32768])

/-- R95, R97: a literal word resolves to itself, a register word to the register's contents, any other word raises
InvalidOperand. -/
def Obligations.ValueWordsResolveByTheirClass : Prop :=
  ∀ (w : Word) (s : State),
    (w.toNat ≤ 32767 → resolve (operandOf w) s = .ok w) ∧
    (∀ i : RegIndex, w.toNat = 32768 + i.val → resolve (operandOf w) s = .ok (s.x[i])) ∧
    (32776 ≤ w.toNat → resolve (operandOf w) s = .error (.raise .invalidOperand))

/-- R98: a register word selects its register; every literal and every invalid word raises InvalidDestination. -/
def Obligations.OnlyRegisterWordsAreDestinations : Prop :=
  ∀ w : Word,
    (∀ i : RegIndex, w.toNat = 32768 + i.val → dest (operandOf w) = .ok i) ∧
    (w.toNat < 32768 ∨ 32776 ≤ w.toNat → dest (operandOf w) = .error (.raise .invalidDestination))

/-! ### The step (40_execution_loop.md) -/

/-- R124, R135: a running step with the words of a well-formed instruction at pc is that instruction's meaning. -/
def Obligations.StepRunsTheInstructionAtPc : Prop :=
  ∀ (s : State) (i : Instr), s.run = .running → i.wf = true → InstrAtPc s i → step s = exec i s

/-- R122, R123: an opcode word or an operand word beyond 32767 raises InvalidAddress with the cursor of the
instruction. -/
def Obligations.FetchBeyondMemoryRaisesInvalidAddress : Prop :=
  ∀ s : State, s.run = .running →
    (32767 < s.pc ∨ 32767 < s.pc + arity (s.mem.read s.pc)) →
    step s = .next { s with run := .failed, fault := some { kind := .invalidAddress, cursor := s.pc } }

/-- From HALTED and from FAILED there is no step (R130), and in every state, running ones too, a host event changes at
most the input source (R88, R257, R284). The outcomes that name the missing step are the model's (log 6), and so are the
input source and the host's moves (log 4, log 12). -/
def Obligations.HaltedAndFailedAreTerminal : Prop :=
  ∀ s : State,
    (s.run = .halted → step s = .fault .haltedIsTerminal) ∧
    (s.run = .failed → step s = .fault .failedIsTerminal) ∧
    ∀ (e : HostEvent) (t : State), hostMove e s = some t →
      t = { s with input := t.input } ∧ (s.run ≠ .running → step t = step s)

/-- R128, R248: a step that fails changes run and fault and nothing else; the recorded cursor is the pc, and the kind
is a run-time kind. -/
def Obligations.FaultsArePrecise : Prop :=
  ∀ s t : State, step s = .next t → t.run = .failed →
    ∃ k : FaultKind, k ≠ .imageTooLarge ∧
      t = { s with run := .failed, fault := some { kind := k, cursor := s.pc } }

/-- R129, R250: a clean end changes run only, and comes only from HALT or from RET on an empty stack. -/
def Obligations.CleanEndComesFromHaltOrEmptyRet : Prop :=
  ∀ s t : State, step s = .next t → t.run = .halted →
    t = { s with run := .halted } ∧
    (s.mem.read s.pc = 0 ∨ (s.mem.read s.pc = 18 ∧ s.stack = []))

/-- When the core waits for input (R55, which the spec derives from R231 and R133, with R121 and R232); no other
instruction waits (R133), so with an unbounded stack (R44) a running machine that does not wait has a step. -/
def Obligations.OnlyInWaitsAndOnlyWithoutAByte : Prop :=
  ∀ s : State,
    (step s = .fault .waitingForInput ↔
      (s.run = .running ∧ s.pc + 1 ≤ 32767 ∧ s.mem.read s.pc = 20 ∧
        (∃ d : RegIndex, (s.mem.read (s.pc + 1)).toNat = 32768 + d.val) ∧
        s.input.pending = [] ∧ (s.input.ended = true → s.cfg.inEof = .block))) ∧
    (s.run = .running → s.cfg.stackCapacity = none → step s ≠ .fault .waitingForInput → ∃ t, step s = .next t)

/-! ### HALT, NOOP, unknown opcodes -/

/-- R131: a zero word is HALT; it changes run and nothing else. -/
def Obligations.HaltEndsTheRunAndChangesNothingElse : Prop :=
  (∀ rest, decode (0 :: rest) = .ok (.halt, rest)) ∧
  (∀ s : State, exec .halt s = .next { s with run := .halted }) ∧
  (∀ s : State, s.run = .running → s.pc ≤ 32767 → s.mem.read s.pc = 0 → step s = .next { s with run := .halted })

/-- R132: NOOP advances pc by one and changes nothing else; from 32767 the next step raises InvalidAddress(32768). -/
def Obligations.NoopAdvancesPcOnly : Prop :=
  (∀ rest, decode (21 :: rest) = .ok (.noop, rest)) ∧
  (∀ s : State, exec .noop s = .next { s with pc := s.pc + 1 }) ∧
  (∀ s : State, s.run = .running → s.pc ≤ 32767 → s.mem.read s.pc = 21 → step s = .next { s with pc := s.pc + 1 }) ∧
  (∀ s : State, s.run = .running → s.pc = 32767 → s.mem.read s.pc = 21 →
    step { s with pc := s.pc + 1 } =
      .next { s with pc := 32768, run := .failed, fault := some { kind := .invalidAddress, cursor := 32768 } })

/-- R134: every opcode word from 22 on is a one-word no-op; the words after it are not read, and
the word itself is not resolved. -/
def Obligations.UnknownOpcodeIsAOneWordNoOp : Prop :=
  ∀ op : Word, 22 ≤ op.toNat →
    (∀ rest, decode (op :: rest) = .ok (.unknown op, rest)) ∧
    (∀ s : State, exec (.unknown op) s = .next { s with pc := s.pc + 1 }) ∧
    (∀ s : State, s.run = .running → s.pc ≤ 32767 → s.mem.read s.pc = op →
      step s = .next { s with pc := s.pc + 1 })

/-! ### SET, PUSH, POP (41_move_and_stack.md) -/

/-- R150. -/
def Obligations.SetWritesTheResolvedValue : Prop :=
  (∀ w1 w2 rest, decode (1 :: w1 :: w2 :: rest) = .ok (.set (operandOf w1) (operandOf w2), rest)) ∧
  (∀ (d : RegIndex) b (s : State) v, resolve b s = .ok v →
    exec (.set (.register d) b) s = .next { s with x := s.x.set d v, pc := s.pc + 3 }) ∧
  (∀ a b s, (∀ d, a ≠ .register d) → Raises (.set a b) s .invalidDestination) ∧
  (∀ d w s, Raises (.set (.register d) (.invalid w)) s .invalidOperand)

/-- R151; a finite STACK_CAPACITY needs room (R44). -/
def Obligations.PushAppendsTheResolvedValue : Prop :=
  (∀ w1 rest, decode (2 :: w1 :: rest) = .ok (.push (operandOf w1), rest)) ∧
  (∀ a (s : State) v, resolve a s = .ok v → (∀ n, s.cfg.stackCapacity = some n → s.stack.length < n) →
    exec (.push a) s = .next { s with stack := s.stack ++ [v], pc := s.pc + 2 }) ∧
  (∀ w s, Raises (.push (.invalid w)) s .invalidOperand)

/-- R152. -/
def Obligations.PopMovesTheTopIntoARegister : Prop :=
  (∀ w1 rest, decode (3 :: w1 :: rest) = .ok (.pop (operandOf w1), rest)) ∧
  (∀ (d : RegIndex) (s : State) below v, s.stack = below ++ [v] →
    exec (.pop (.register d)) s = .next { s with x := s.x.set d v, stack := below, pc := s.pc + 2 }) ∧
  (∀ (d : RegIndex) (s : State), s.stack = [] → Raises (.pop (.register d)) s .stackUnderflow) ∧
  (∀ a s, (∀ d, a ≠ .register d) → Raises (.pop a) s .invalidDestination)

/-- R44: with a finite STACK_CAPACITY N there is no step when PUSH or CALL would make the depth N + 1, and no fault is
recorded. That the room is checked after the operands, that a stack deeper than N is full too, and the outcome that names
this are the model's reading (log 7). -/
def Obligations.FullStackLeavesNoStep : Prop :=
  ∀ (s : State) (n : Nat), s.cfg.stackCapacity = some n → n ≤ s.stack.length →
    (∀ a v, resolve a s = .ok v → exec (.push a) s = .fault .stackFull) ∧
    (∀ a v, resolve a s = .ok v → v.toNat ≤ 32767 → exec (.call a) s = .fault .stackFull)

/-! ### EQ, GT (42_compare.md) -/

/-- R160: on the full 16-bit resolved values. -/
def Obligations.EqWritesOneExactlyOnEquality : Prop :=
  (∀ w1 w2 w3 rest, decode (4 :: w1 :: w2 :: w3 :: rest) =
    .ok (.eq (operandOf w1) (operandOf w2) (operandOf w3), rest)) ∧
  (∀ (d : RegIndex) b c (s : State) vb vc, resolve b s = .ok vb → resolve c s = .ok vc →
    exec (.eq (.register d) b c) s =
      .next { s with x := s.x.set d (if vb.toNat = vc.toNat then 1 else 0), pc := s.pc + 4 }) ∧
  ThreeOperandFaults .eq

/-- R161: unsigned and strict. -/
def Obligations.GtWritesOneExactlyWhenGreater : Prop :=
  (∀ w1 w2 w3 rest, decode (5 :: w1 :: w2 :: w3 :: rest) =
    .ok (.gt (operandOf w1) (operandOf w2) (operandOf w3), rest)) ∧
  (∀ (d : RegIndex) b c (s : State) vb vc, resolve b s = .ok vb → resolve c s = .ok vc →
    exec (.gt (.register d) b c) s =
      .next { s with x := s.x.set d (if vc.toNat < vb.toNat then 1 else 0), pc := s.pc + 4 }) ∧
  ThreeOperandFaults .gt

/-! ### JMP, JT, JF, CALL, RET (43_control_transfer.md) -/

/-- R171. -/
def Obligations.JmpSetsPcToTheTarget : Prop :=
  (∀ w1 rest, decode (6 :: w1 :: rest) = .ok (.jmp (operandOf w1), rest)) ∧
  (∀ a (s : State) v, resolve a s = .ok v → v.toNat ≤ 32767 → exec (.jmp a) s = .next { s with pc := v.toNat }) ∧
  (∀ a s v, resolve a s = .ok v → 32767 < v.toNat → Raises (.jmp a) s .invalidAddress) ∧
  (∀ w s, Raises (.jmp (.invalid w)) s .invalidOperand)

/-- R172: the target is resolved and checked only when the branch is taken. -/
def Obligations.JtBranchesOnNonzero : Prop :=
  (∀ w1 w2 rest, decode (7 :: w1 :: w2 :: rest) = .ok (.jt (operandOf w1) (operandOf w2), rest)) ∧
  (∀ a b (s : State) v t, resolve a s = .ok v → v ≠ 0 → resolve b s = .ok t → t.toNat ≤ 32767 →
    exec (.jt a b) s = .next { s with pc := t.toNat }) ∧
  (∀ a b (s : State), resolve a s = .ok 0 → exec (.jt a b) s = .next { s with pc := s.pc + 3 }) ∧
  (∀ a b s v t, resolve a s = .ok v → v ≠ 0 → resolve b s = .ok t → 32767 < t.toNat →
    Raises (.jt a b) s .invalidAddress) ∧
  (∀ a w s v, resolve a s = .ok v → v ≠ 0 → Raises (.jt a (.invalid w)) s .invalidOperand) ∧
  (∀ w b s, Raises (.jt (.invalid w) b) s .invalidOperand)

/-- R173: JF branches on exactly zero; its target is resolved and checked only then. -/
def Obligations.JfBranchesOnExactlyZero : Prop :=
  (∀ w1 w2 rest, decode (8 :: w1 :: w2 :: rest) = .ok (.jf (operandOf w1) (operandOf w2), rest)) ∧
  (∀ a b (s : State) t, resolve a s = .ok 0 → resolve b s = .ok t → t.toNat ≤ 32767 →
    exec (.jf a b) s = .next { s with pc := t.toNat }) ∧
  (∀ a b (s : State) v, resolve a s = .ok v → v ≠ 0 → exec (.jf a b) s = .next { s with pc := s.pc + 3 }) ∧
  (∀ a b s t, resolve a s = .ok 0 → resolve b s = .ok t → 32767 < t.toNat → Raises (.jf a b) s .invalidAddress) ∧
  (∀ a w s, resolve a s = .ok 0 → Raises (.jf a (.invalid w)) s .invalidOperand) ∧
  (∀ w b s, Raises (.jf (.invalid w) b) s .invalidOperand)

/-- R174: CALL pushes pc + 2, the entry 32768 when it stands at 32766. -/
def Obligations.CallPushesTheReturnAddressAndJumps : Prop :=
  (∀ w1 rest, decode (17 :: w1 :: rest) = .ok (.call (operandOf w1), rest)) ∧
  (∀ a (s : State) v, resolve a s = .ok v → v.toNat ≤ 32767 → s.pc ≤ 32766 →
    (∀ n, s.cfg.stackCapacity = some n → s.stack.length < n) →
    ∃ r : Word, r.toNat = s.pc + 2 ∧
      exec (.call a) s = .next { s with stack := s.stack ++ [r], pc := v.toNat }) ∧
  (∀ a s v, resolve a s = .ok v → 32767 < v.toNat → Raises (.call a) s .invalidAddress) ∧
  (∀ w s, Raises (.call (.invalid w)) s .invalidOperand)

/-- R175: a clean end on an empty stack, else the top entry is checked, popped and jumped to. -/
def Obligations.RetPopsTheTargetOrHalts : Prop :=
  (∀ rest, decode (18 :: rest) = .ok (.ret, rest)) ∧
  (∀ s : State, s.stack = [] → exec .ret s = .next { s with run := .halted }) ∧
  (∀ (s : State) below e, s.stack = below ++ [e] → e.toNat ≤ 32767 →
    exec .ret s = .next { s with stack := below, pc := e.toNat }) ∧
  (∀ (s : State) below e, s.stack = below ++ [e] → 32767 < e.toNat → Raises .ret s .invalidAddress)

/-! ### ADD, MULT, MOD (44_arithmetic.md) -/

/-- R190: the exact sum, reduced modulo 32768. -/
def Obligations.AddWritesTheSumModulo32768 : Prop :=
  (∀ w1 w2 w3 rest, decode (9 :: w1 :: w2 :: w3 :: rest) =
    .ok (.add (operandOf w1) (operandOf w2) (operandOf w3), rest)) ∧
  (∀ (d : RegIndex) b c (s : State) vb vc, resolve b s = .ok vb → resolve c s = .ok vc →
    ∃ r : Word, r.toNat = (vb.toNat + vc.toNat) % 32768 ∧
      exec (.add (.register d) b c) s = .next { s with x := s.x.set d r, pc := s.pc + 4 }) ∧
  ThreeOperandFaults .add

/-- R191: the exact product, reduced modulo 32768. -/
def Obligations.MultWritesTheProductModulo32768 : Prop :=
  (∀ w1 w2 w3 rest, decode (10 :: w1 :: w2 :: w3 :: rest) =
    .ok (.mult (operandOf w1) (operandOf w2) (operandOf w3), rest)) ∧
  (∀ (d : RegIndex) b c (s : State) vb vc, resolve b s = .ok vb → resolve c s = .ok vc →
    ∃ r : Word, r.toNat = (vb.toNat * vc.toNat) % 32768 ∧
      exec (.mult (.register d) b c) s = .next { s with x := s.x.set d r, pc := s.pc + 4 }) ∧
  ThreeOperandFaults .mult

/-- R192: the unsigned remainder, reduced modulo 32768; ArithmeticFault for the divisor 0, after every operand check.
-/
def Obligations.ModWritesTheRemainderOrFaults : Prop :=
  (∀ w1 w2 w3 rest, decode (11 :: w1 :: w2 :: w3 :: rest) =
    .ok (.mod (operandOf w1) (operandOf w2) (operandOf w3), rest)) ∧
  (∀ (d : RegIndex) b c (s : State) vb vc, resolve b s = .ok vb → resolve c s = .ok vc → vc ≠ 0 →
    ∃ r : Word, r.toNat = vb.toNat % vc.toNat % 32768 ∧
      exec (.mod (.register d) b c) s = .next { s with x := s.x.set d r, pc := s.pc + 4 }) ∧
  (∀ (d : RegIndex) b c s vb, resolve b s = .ok vb → resolve c s = .ok 0 →
    Raises (.mod (.register d) b c) s .arithmeticFault) ∧
  ThreeOperandFaults .mod

/-! ### AND, OR, NOT (45_bitwise.md) -/

/-- R210. -/
def Obligations.AndWritesTheMaskedConjunction : Prop :=
  (∀ w1 w2 w3 rest, decode (12 :: w1 :: w2 :: w3 :: rest) =
    .ok (.and (operandOf w1) (operandOf w2) (operandOf w3), rest)) ∧
  (∀ (d : RegIndex) b c (s : State) vb vc, resolve b s = .ok vb → resolve c s = .ok vc →
    exec (.and (.register d) b c) s =
      .next { s with x := s.x.set d ((vb &&& vc) &&& 0x7FFF), pc := s.pc + 4 }) ∧
  ThreeOperandFaults .and

/-- R211. -/
def Obligations.OrWritesTheMaskedDisjunction : Prop :=
  (∀ w1 w2 w3 rest, decode (13 :: w1 :: w2 :: w3 :: rest) =
    .ok (.or (operandOf w1) (operandOf w2) (operandOf w3), rest)) ∧
  (∀ (d : RegIndex) b c (s : State) vb vc, resolve b s = .ok vb → resolve c s = .ok vc →
    exec (.or (.register d) b c) s =
      .next { s with x := s.x.set d ((vb ||| vc) &&& 0x7FFF), pc := s.pc + 4 }) ∧
  ThreeOperandFaults .or

/-- R212. -/
def Obligations.NotWritesTheFifteenBitComplement : Prop :=
  (∀ w1 w2 rest, decode (14 :: w1 :: w2 :: rest) = .ok (.not (operandOf w1) (operandOf w2), rest)) ∧
  (∀ (d : RegIndex) b (s : State) vb, resolve b s = .ok vb →
    exec (.not (.register d) b) s = .next { s with x := s.x.set d (~~~vb &&& 0x7FFF), pc := s.pc + 3 }) ∧
  (∀ a b s, (∀ d, a ≠ .register d) → Raises (.not a b) s .invalidDestination) ∧
  (∀ d w s, Raises (.not (.register d) (.invalid w)) s .invalidOperand)

/-- What AND, OR and NOT write, bit by bit: the plain operation on bits 14 to 0, and 0 in bit 15 (R213, which the spec
derives from R210 to R212). -/
def Obligations.BitwiseResultsBitByBit : Prop :=
  ∀ (d : RegIndex) (b c : Operand) (s : State) (vb vc : Word), resolve b s = .ok vb → resolve c s = .ok vc →
    ∃ ra ro rn : Word,
      exec (.and (.register d) b c) s = .next { s with x := s.x.set d ra, pc := s.pc + 4 } ∧
      exec (.or (.register d) b c) s = .next { s with x := s.x.set d ro, pc := s.pc + 4 } ∧
      exec (.not (.register d) b) s = .next { s with x := s.x.set d rn, pc := s.pc + 3 } ∧
      (∀ j, j < 15 → ra.getLsbD j = (vb.getLsbD j && vc.getLsbD j) ∧
        ro.getLsbD j = (vb.getLsbD j || vc.getLsbD j) ∧ rn.getLsbD j = !vb.getLsbD j) ∧
      ra.getLsbD 15 = false ∧ ro.getLsbD 15 = false ∧ rn.getLsbD 15 = false

/-! ### RMEM, WMEM (46_memory.md) -/

/-- R220, with the widening of R223. -/
def Obligations.RmemCopiesTheCellIntoTheRegister : Prop :=
  (∀ w1 w2 rest, decode (15 :: w1 :: w2 :: rest) = .ok (.rmem (operandOf w1) (operandOf w2), rest)) ∧
  (∀ (d : RegIndex) b (s : State) addr, resolve b s = .ok addr → addr.toNat ≤ 32767 →
    (s.cfg.rmemWide = .storeRaw →
      exec (.rmem (.register d) b) s =
        .next { s with x := s.x.set d (s.mem.read addr.toNat), pc := s.pc + 3 }) ∧
    (s.cfg.rmemWide = .mask15 →
      exec (.rmem (.register d) b) s =
        .next { s with x := s.x.set d (s.mem.read addr.toNat &&& 0x7FFF), pc := s.pc + 3 })) ∧
  (∀ (d : RegIndex) b s addr, resolve b s = .ok addr → 32767 < addr.toNat →
    Raises (.rmem (.register d) b) s .invalidAddress) ∧
  (∀ a b s, (∀ d, a ≠ .register d) → Raises (.rmem a b) s .invalidDestination) ∧
  (∀ d w s, Raises (.rmem (.register d) (.invalid w)) s .invalidOperand)

/-- R221: the cell at the resolved address takes the whole 16-bit value, every other cell and all other state but pc
stays; InvalidAddress only after both operands resolve. The reads are of a canonical memory, which every run has
(StepKeepsTheInvariant). -/
def Obligations.WmemStoresTheValueInOneCell : Prop :=
  (∀ w1 w2 rest, decode (16 :: w1 :: w2 :: rest) = .ok (.wmem (operandOf w1) (operandOf w2), rest)) ∧
  (∀ a b (s : State) addr v, resolve a s = .ok addr → resolve b s = .ok v → addr.toNat ≤ 32767 →
    ∃ m : Memory, exec (.wmem a b) s = .next { s with mem := m, pc := s.pc + 3 } ∧
      (Memory.wf s.mem → m.read addr.toNat = v ∧ ∀ c, c ≠ addr.toNat → m.read c = s.mem.read c)) ∧
  (∀ a b s addr v, resolve a s = .ok addr → resolve b s = .ok v → 32767 < addr.toNat →
    Raises (.wmem a b) s .invalidAddress) ∧
  (∀ w b s, Raises (.wmem (.invalid w) b) s .invalidOperand) ∧
  (∀ a w s addr, resolve a s = .ok addr → Raises (.wmem a (.invalid w)) s .invalidOperand)

/-- A running WMEM, even one that overwrites its own words, has its effect, and the fetch of the very next instruction
sees the word it stored (R85 and R281, which the spec derives from R70, R78 and R280, with its decision D18). -/
def Obligations.NextFetchSeesTheStoredWord : Prop :=
  ∀ (s : State) (a b : Operand) (addr v : Word), Memory.wf s.mem → s.run = .running → (Instr.wmem a b).wf = true →
    InstrAtPc s (.wmem a b) → resolve a s = .ok addr → resolve b s = .ok v → addr.toNat ≤ 32767 →
    ∃ t : State, step s = .next t ∧ t.pc = s.pc + 3 ∧ t.mem.read addr.toNat = v ∧
      (∀ c, c ≠ addr.toNat → t.mem.read c = s.mem.read c) ∧
      (∀ j : Instr, j.wf = true → encode j = [v] → addr.toNat = s.pc + 3 → step t = exec j t)

/-- A memory in canonical form is determined by what its cells read as, and a write keeps the form (log 1). -/
def Obligations.CanonicalMemoriesAreDeterminedByTheirReads : Prop :=
  (∀ m n : Memory, Memory.wf m → Memory.wf n → (∀ a, m.read a = n.read a) → m = n) ∧
  (∀ (m : Memory) (a : Nat) (v : Word), Memory.wf m → a ≤ 32767 → Memory.wf (m.write a v))

/-! ### OUT, IN (47_io.md) -/

/-- R230: bits 7 to 0 of the resolved value, appended to outlog. -/
def Obligations.OutEmitsTheLowByte : Prop :=
  (∀ w1 rest, decode (19 :: w1 :: rest) = .ok (.out (operandOf w1), rest)) ∧
  (∀ a (s : State) v, resolve a s = .ok v →
    ∃ b : Byte, b.toNat = v.toNat % 256 ∧
      exec (.out a) s = .next { s with outlog := s.outlog ++ [b], pc := s.pc + 2 }) ∧
  (∀ w s, Raises (.out (.invalid w)) s .invalidOperand)

/-- R231: IN takes exactly one byte, the next one; with none it has no step; its destination is checked first, without
taking a byte. -/
def Obligations.InTakesExactlyOneByte : Prop :=
  (∀ w1 rest, decode (20 :: w1 :: rest) = .ok (.inp (operandOf w1), rest)) ∧
  (∀ (d : RegIndex) (s : State) b later, s.input.pending = b :: later →
    ∃ r : Word, r.toNat = b.toNat ∧
      exec (.inp (.register d)) s =
        .next { s with x := s.x.set d r, input := { s.input with pending := later }, pc := s.pc + 2 }) ∧
  (∀ (d : RegIndex) (s : State), s.input.pending = [] → s.input.ended = false →
    exec (.inp (.register d)) s = .fault .waitingForInput) ∧
  (∀ a s, (∀ d, a ≠ .register d) → Raises (.inp a) s .invalidDestination)

/-- R232: what IN does at the end of input, for each value of IN_EOF. Under Block the wait lasts for ever: no host event
makes a byte available once the source has ended, and IN still waits in whatever state a host event leaves. That the
source stays as it is then is the model's reading (log 21), and the outcome that names the wait is the model's (log 5). -/
def Obligations.EndOfInputFollowsInEof : Prop :=
  ∀ (d : RegIndex) (s : State), s.input.pending = [] → s.input.ended = true →
    (s.cfg.inEof = .block → exec (.inp (.register d)) s = .fault .waitingForInput ∧
      ∀ (e : HostEvent) (t : State), hostMove e s = some t →
        t = s ∧ exec (.inp (.register d)) t = .fault .waitingForInput) ∧
    (∀ b : Byte, s.cfg.inEof = .sentinel b →
      exec (.inp (.register d)) s = .next { s with x := s.x.set d (b.setWidth 16), pc := s.pc + 2 }) ∧
    (s.cfg.inEof = .fail → Raises (.inp (.register d)) s .inputExhausted)

/-- What the host does to the input source, and what an arriving byte does: `supply` puts its byte behind the bytes
already there (R22, R54), `endInput` marks the source ended (R232), after TERMINATE there is no state (R24, R276); a byte
that arrives before a step that does not wait changes nothing of that step (R87, R88, R251); and an IN that waits has its
step once a byte arrives, and takes exactly that byte (R55, R231, R257). The input source, the outcome that names the wait
and the host's moves are the model's (log 4, log 5, log 12). -/
def Obligations.ArrivingBytesDoNotDisturbAStep : Prop :=
  ∀ (s : State) (b : Byte),
    hostMove .terminate s = none ∧
    hostMove .endInput s = some { s with input := { s.input with ended := true } } ∧
    (s.input.ended = false →
      hostMove (.supply b) s = some { s with input := { s.input with pending := s.input.pending ++ [b] } } ∧
      (∀ t, step s = .next t →
        step { s with input := { s.input with pending := s.input.pending ++ [b] } } =
          .next { t with input := { t.input with pending := t.input.pending ++ [b] } }) ∧
      (step s = .fault .waitingForInput →
        ∃ (d : RegIndex) (r : Word), (s.mem.read (s.pc + 1)).toNat = 32768 + d.val ∧ r.toNat = b.toNat ∧
          step { s with input := { s.input with pending := s.input.pending ++ [b] } } =
            .next { s with x := s.x.set d r, pc := s.pc + 2 }))

/-! ### Which instruction raises which fault (60_exceptions.md) -/

/-- R242, R247: InvalidDestination is raised exactly by a destination operand that is no register word, whatever the
other operands are. -/
def Obligations.InvalidDestinationExactlyForNonRegisterDestinations : Prop :=
  ∀ (i : Instr) (s : State), s.fault = none →
    (Raises i s .invalidDestination ↔ ∃ a, destinationOperand i = some a ∧ ∀ d, a ≠ .register d)

/-- R241, R247: InvalidOperand is raised exactly when the destination passes and a value operand is an invalid word;
the target of JT and JF counts only when the branch is taken. -/
def Obligations.InvalidOperandExactlyForInvalidValueWords : Prop :=
  ∀ (i : Instr) (s : State), s.fault = none →
    (Raises i s .invalidOperand ↔
      (∀ a, destinationOperand i = some a → ∃ d, a = .register d) ∧
      ((∃ w, .invalid w ∈ valueOperands i) ∨
       (∃ a w v, i = .jt a (.invalid w) ∧ resolve a s = .ok v ∧ v ≠ 0) ∨
       (∃ a w, i = .jf a (.invalid w) ∧ resolve a s = .ok 0)))

/-- R243, R244, R258: the three kinds that one instruction alone raises, each exactly when its rule says. -/
def Obligations.UnderflowDivisorAndEndOfInputFaults : Prop :=
  ∀ (i : Instr) (s : State), s.fault = none →
    (Raises i s .stackUnderflow ↔ ∃ d, i = .pop (.register d) ∧ s.stack = []) ∧
    (Raises i s .arithmeticFault ↔
      ∃ d b c vb, i = .mod (.register d) b c ∧ resolve b s = .ok vb ∧ resolve c s = .ok 0) ∧
    (Raises i s .inputExhausted ↔
      ∃ d, i = .inp (.register d) ∧ s.input.pending = [] ∧ s.input.ended = true ∧ s.cfg.inEof = .fail)

/-- R245 for a meaning, the two fetch cases being FetchBeyondMemoryRaisesInvalidAddress: InvalidAddress is raised exactly
for an address or a transfer target of 32768 or more. -/
def Obligations.InvalidAddressExactlyForWideAddresses : Prop :=
  ∀ (i : Instr) (s : State), s.fault = none →
    (Raises i s .invalidAddress ↔
      (∃ d b v, i = .rmem (.register d) b ∧ resolve b s = .ok v ∧ 32767 < v.toNat) ∨
      (∃ a b v u, i = .wmem a b ∧ resolve a s = .ok v ∧ resolve b s = .ok u ∧ 32767 < v.toNat) ∨
      (∃ a v, (i = .jmp a ∨ i = .call a) ∧ resolve a s = .ok v ∧ 32767 < v.toNat) ∨
      (∃ a b v u, i = .jt a b ∧ resolve a s = .ok v ∧ v ≠ 0 ∧ resolve b s = .ok u ∧ 32767 < u.toNat) ∨
      (∃ a b u, i = .jf a b ∧ resolve a s = .ok 0 ∧ resolve b s = .ok u ∧ 32767 < u.toNat) ∨
      (∃ below e, i = .ret ∧ s.stack = below ++ [e] ∧ 32767 < e.toNat))

/-! ### Frames, for every instruction (10_state.md) -/

/-- R34: a register changes only when it is the destination operand. -/
def Obligations.OnlyTheDestinationRegisterChanges : Prop :=
  ∀ (i : Instr) (s t : State) (r : RegIndex), exec i s = .next t → destinationOperand i ≠ some (.register r) →
    t.reg r = s.reg r

/-- A cell changes only when it is the one a WMEM stores to (R73; R74, which the spec derives from its opcode table). -/
def Obligations.OnlyTheStoredCellChanges : Prop :=
  ∀ (i : Instr) (s t : State), Memory.wf s.mem → exec i s = .next t →
    (storeAddress i s = none → ∀ c, t.mem.read c = s.mem.read c) ∧
    (∀ a, storeAddress i s = some a → ∀ c, c ≠ a → t.mem.read c = s.mem.read c)

/-- R43: PUSH and CALL push one entry, POP and RET pop one; a fault, an empty RET and every other instruction leave the
stack as it is. -/
def Obligations.OnlyFourInstructionsChangeTheStack : Prop :=
  ∀ (i : Instr) (s t : State), exec i s = .next t →
    t.stack = s.stack ∨
    (∃ a v, (i = .push a ∨ i = .call a) ∧ t.stack = s.stack ++ [v]) ∨
    (∃ v, ((∃ a, i = .pop a) ∨ i = .ret) ∧ s.stack = t.stack ++ [v])

/-- R53, R54, and log 3 and 4: outlog grows by one byte at an OUT and else stays, the input source loses its next byte
at an IN and else stays, and no instruction changes the parameters. -/
def Obligations.ChannelsChangeOnlyAtOutAndIn : Prop :=
  ∀ (i : Instr) (s t : State), exec i s = .next t →
    (t.outlog = s.outlog ∨ ∃ a b, i = .out a ∧ t.outlog = s.outlog ++ [b]) ∧
    (t.input = s.input ∨ ∃ a b, i = .inp a ∧ s.input = { t.input with pending := b :: t.input.pending }) ∧
    t.cfg = s.cfg

/-- R126: an instruction that neither transfers control nor halts nor fails moves pc past its own words, without
wrap. -/
def Obligations.PcAdvancesByTheInstructionsWords : Prop :=
  ∀ (i : Instr) (s t : State), s.run = .running → exec i s = .next t → t.run = .running →
    transfersControl i = false → t.pc = s.pc + (encode i).length

/-- R35: what each writing instruction stores in its destination register. -/
def Obligations.StoredValuesAreInTheirRanges : Prop :=
  ∀ (i : Instr) (s t : State) (d : RegIndex), s.run = .running → exec i s = .next t → t.run = .running →
    destinationOperand i = some (.register d) →
    (∀ b c, i = .add (.register d) b c ∨ i = .mult (.register d) b c ∨ i = .mod (.register d) b c ∨
      i = .and (.register d) b c ∨ i = .or (.register d) b c ∨ i = .not (.register d) b →
      (t.reg d).toNat ≤ 32767) ∧
    (∀ b c, i = .eq (.register d) b c ∨ i = .gt (.register d) b c → t.reg d = 0 ∨ t.reg d = 1) ∧
    (i = .inp (.register d) → (t.reg d).toNat ≤ 255) ∧
    (∀ b, i = .set (.register d) b → resolve b s = .ok (t.reg d)) ∧
    (i = .pop (.register d) → s.stack = t.stack ++ [t.reg d]) ∧
    (∀ b v, i = .rmem (.register d) b → resolve b s = .ok v →
      (s.cfg.rmemWide = .storeRaw → t.reg d = s.mem.read v.toNat) ∧
      (s.cfg.rmemWide = .mask15 → t.reg d = s.mem.read v.toNat &&& 0x7FFF))

/-! ### Invariants -/

/-- R60 to R64 and R66 at `State.reset`, and the invariant there. The empty input source and the reference parameters
are the model's choice (log 3, log 4). -/
def Obligations.ResetStateMeetsTheInvariant : Prop :=
  State.reset.Inv ∧ (∀ i, State.reset.reg i = 0) ∧ State.reset.pc = 0 ∧ State.reset.stack = [] ∧
  State.reset.run = .running ∧ State.reset.fault = none ∧ State.reset.outlog = [] ∧
  (∀ a, State.reset.mem.read a = 0)

/-- The invariant `State.Inv` holds of every started machine, and no host event breaks it. It holds also of the state that a
too large image leaves, where R272 and R246 fix only run, kind and cursor: the other fields of that state are the model's
choice (log 11), as are the input source and the host's moves (log 4, log 12). -/
def Obligations.LoadAndHostEventsKeepTheInvariant : Prop :=
  (∀ (cfg : Config) (image : List Word), (State.load cfg image).Inv) ∧
  (∀ (e : HostEvent) (s t : State), s.Inv → hostMove e s = some t → t.Inv)

/-- Every step keeps the invariant: memory canonical (R70), pc in 0 to 32768 (R37), the stack within STACK_CAPACITY
(R44), fault set exactly in FAILED and with the pc as its cursor (R52, R128), InputExhausted only under Fail (R258). -/
def Obligations.StepKeepsTheInvariant : Prop :=
  ∀ s t : State, s.Inv → step s = .next t → t.Inv

/-- Under Mask15 every step keeps registers and stack entries at 32768 or below; and every step but a CALL at 32766 keeps
them at 32767 or below, which is as much of R56's last sentence as R174 and R152 leave true (R41, R223, log 13). -/
def Obligations.Mask15KeepsDataAtMost32768 : Prop :=
  (∀ s t : State, s.NarrowData 32768 → step s = .next t → t.NarrowData 32768) ∧
  (∀ s t : State, s.NarrowData 32767 → step s = .next t → (s.pc = 32766 → s.mem.read 32766 ≠ 17) →
    t.NarrowData 32767)

/-- The last sentence of R56, which the spec derives from R35 and R223: under Mask15 every register stays in 0 to 32767 at
every step. It contradicts R174 with R152 and R35 (CALL at 32766 pushes 32768, POP copies it unmasked), which the ranking at
the head of 90_conflicts.md prefers, so it is expected to fail: log 13. -/
def Obligations.Mask15KeepsRegistersBelow32768 : Prop :=
  ∀ (cfg : Config) (image : List Word) (n : Nat) (t : State), cfg.rmemWide = .mask15 →
    core.run n (State.load cfg image) = .next t → ∀ i, (t.reg i).toNat ≤ 32767

/-! ### Reset, loading, result (70_reset_and_hazards.md) -/

/-- R270, R271: the state a run starts from; R272, R246: an image of more than 32768 words is refused, with FAILED,
ImageTooLarge and cursor 0 in STATUS, and no step is taken. The parameters and the empty input source are the model's
(log 3, log 4). -/
def Obligations.LoadResetsTheMachineOrRefusesTheImage : Prop :=
  ∀ (cfg : Config) (image : List Word),
    (image.length ≤ 32768 → ∃ m : Memory,
      State.load cfg image =
        { mem := m, x := Vector.replicate 8 0, pc := 0, stack := [], run := .running, fault := none, outlog := [],
          input := { pending := [], ended := false }, cfg := cfg } ∧
      (∀ a, (h : a < image.length) → m.read a = image[a]) ∧
      (∀ a, image.length ≤ a → m.read a = 0)) ∧
    (32768 < image.length →
      (State.load cfg image).status =
        { run := .failed, fault := some { kind := .imageTooLarge, cursor := 0 } } ∧
      ∀ t, step (State.load cfg image) ≠ .next t)

/-- R273, R274: an image file of even length gives one word for each pair of bytes, low byte first, and starts a run
with those words as its image; one of odd length starts no run. The parameters of the run, and what `State.load` answers
for a too large image, are the model's (log 3, log 11). -/
def Obligations.ImageFilesAreLittleEndianPairs : Prop :=
  ∀ (cfg : Config) (bytes : List Byte),
    (bytes.length % 2 = 0 → ∃ ws, imageOfBytes bytes = some ws ∧ State.loadFile cfg bytes = some (State.load cfg ws) ∧
      2 * ws.length = bytes.length ∧
      ∀ j, (h : j < ws.length) → (h0 : 2 * j < bytes.length) → (h1 : 2 * j + 1 < bytes.length) →
        ws[j].toNat = bytes[2 * j].toNat + 256 * bytes[2 * j + 1].toNat) ∧
    (bytes.length % 2 = 1 → State.loadFile cfg bytes = none)

/-- R136, R137: in every state that meets the invariant, the host sees no result while run is RUNNING, and else exactly
one: clean, or the fault's kind and cursor. -/
def Obligations.RunResultIsCleanOrOneFault : Prop :=
  ∀ s : State, s.Inv →
    (s.result = none ↔ s.run = .running) ∧
    (s.result = some .clean ↔ s.run = .halted) ∧
    (∀ k c, s.result = some (.fatal k c) ↔ s.run = .failed ∧ s.fault = some { kind := k, cursor := c })

/-! ### Assembler (30_encoding.md R108) -/

/-- R108: the items of every well-formed instruction (its mnemonic and operands, or `.word` for what no mnemonic can
spell) assemble to its words, and so does the text printed from them, read again as R108 says. The item types and what
R108 leaves open are the model's (log 19). -/
def Obligations.AssemblingADisassembledInstructionGivesItsWords : Prop :=
  ∀ i : Instr, i.wf = true →
    assembleItems (disassemble i) = some (encode i) ∧ assemble (itemsText (disassemble i)) = some (encode i)
end

