-- ==== Sys2Proof/Laws/Assembler.lean ====
section
/-! SUPPORT. Reading a printed text back (30_encoding.md R108): numbers, then operands, then items. -/

namespace Sys2Proof.Machine

/-! ### Characters of an atom -/

/-- A character that belongs to an atom wherever it stands. -/
def AtomChar (c : Char) : Prop :=
  c ≠ apostrophe ∧ c ≠ '#' ∧ c ≠ '\n' ∧ c ≠ ';' ∧ c ≠ ',' ∧ c ≠ ':' ∧ c.isWhitespace = false

theorem lex_atomChar {c : Char} (h : AtomChar c) (acc : Text) (r : List Char) :
    lex false acc (c :: r) = lex false (c :: acc) r := by
  obtain ⟨h1, h2, h3, h4, h5, h6, h7⟩ := h
  cases r with
  | nil => simp [lex, h1, h2, h3, h4, h5, h6, h7]
  | cons d r => cases r <;> simp [lex, h1, h2, h3, h4, h5, h6, h7]

theorem lex_atom (cs : Text) (h : ∀ c ∈ cs, AtomChar c) (acc : Text) (r : List Char) :
    lex false acc (cs ++ r) = lex false (cs.reverse ++ acc) r := by
  induction cs generalizing acc with
  | nil => rfl
  | cons c cs ih =>
    rw [List.cons_append, lex_atomChar (h c (by simp)), ih (fun d hd => h d (by simp [hd]))]
    simp

theorem lex_newline {acc : Text} {r : List Char} :
    lex false acc ('\n' :: r) = endAtom acc (.separator :: lex false [] r) := by
  rw [lex.eq_def]; simp [apostrophe]

theorem lex_comma {acc : Text} {r : List Char} :
    lex false acc (',' :: r) = endAtom acc (.comma :: lex false [] r) := by
  rw [lex.eq_def]; simp [apostrophe]

theorem lex_space {acc : Text} {r : List Char} : lex false acc (' ' :: r) = endAtom acc (lex false [] r) := by
  rw [lex.eq_def]; simp [apostrophe, Char.isWhitespace]

theorem endAtom_reverse {cs : Text} (h : cs ≠ []) (ts : List Token) :
    endAtom (cs.reverse ++ []) ts = .atom cs :: ts := by
  simp [endAtom, h]

/-! ### Numbers -/

theorem digitChar_facts : ∀ d : Fin 10,
    AtomChar (digitChar d) ∧ digitValue (digitChar d) = some d.val ∧ digitChar d ≠ 'x' ∧ digitChar d ≠ 'R' := by
  unfold AtomChar; decide

theorem decimalText_digits {k n : Nat} (h : n ≤ k) : ∀ c ∈ decimalText k n, ∃ d : Fin 10, c = digitChar d := by
  induction k generalizing n with
  | zero =>
    obtain rfl : n = 0 := by omega
    exact fun c hc => ⟨0, by simpa [decimalText] using hc⟩
  | succ k ih =>
    intro c hc
    rw [decimalText] at hc
    split at hc
    · exact ⟨⟨n, ‹_›⟩, by simpa using hc⟩
    · rcases List.mem_append.1 hc with hc | hc
      · exact ih (by omega) c hc
      · exact ⟨⟨n % 10, by omega⟩, by simpa using hc⟩

theorem decimalText_ne_nil (k n : Nat) : decimalText k n ≠ [] := by
  cases k <;> simp only [decimalText]
  · simp
  · split <;> simp

theorem digits_append (base : Nat) (xs ys : Text) (a : Nat) :
    digits base a (xs ++ ys) = (digits base a xs).bind fun b => digits base b ys := by
  induction xs generalizing a with
  | nil => rfl
  | cons x xs ih =>
    simp only [List.cons_append, digits]
    cases digitValue x with
    | none => rfl
    | some d =>
      dsimp only
      split
      · exact ih _
      · rfl

theorem digits_digitChar {d : Nat} (h : d < 10) (a : Nat) : digits 10 a [digitChar d] = some (10 * a + d) := by
  simp [digits, (digitChar_facts ⟨d, h⟩).2.1, h]

theorem digits_decimalText {k n : Nat} (h : n ≤ k) : digits 10 0 (decimalText k n) = some n := by
  induction k generalizing n with
  | zero =>
    obtain rfl : n = 0 := by omega
    rfl
  | succ k ih =>
    rw [decimalText]
    split
    · rw [digits_digitChar ‹_›]; simp
    · rw [digits_append, ih (by omega), Option.bind_some, digits_digitChar (by omega)]
      congr 1; omega

/-- A printed number is read as itself. -/
theorem numberOf_decimalText (n : Nat) : numberOf (decimalText n n) = some n := by
  have hd := digits_decimalText (le_refl n)
  have hc := decimalText_digits (le_refl n)
  have hne := decimalText_ne_nil n n
  revert hd hc hne
  generalize decimalText n n = t
  intro hd hc hne
  unfold numberOf
  split
  · obtain ⟨d, hx⟩ := hc 'x' (by simp)
    exact absurd hx.symm (digitChar_facts d).2.2.1
  · exact hd
  · exact absurd rfl hne

/-- A printed number is no register. -/
theorem registerOf_decimalText (n : Nat) : registerOf (decimalText n n) = none := by
  have hc := decimalText_digits (le_refl n)
  revert hc
  generalize decimalText n n = t
  intro hc
  unfold registerOf
  split
  · obtain ⟨d, hR⟩ := hc 'R' (by simp)
    exact absurd hR.symm (digitChar_facts d).2.2.2
  · rfl

/-! ### Operands -/

/-- An operand that `disassemble` writes. -/
def AsmOperand.Plain : AsmOperand → Prop
  | .register _ => True
  | .number _   => True
  | .char _     => False
  | .label _    => False

theorem AsmOperand.Plain.text_facts {o : AsmOperand} (h : o.Plain) :
    (∀ c ∈ o.text, AtomChar c) ∧ o.text ≠ [] ∧ argumentOf (.atom o.text) = some o := by
  cases o with
  | register i =>
    have hi : ∀ i : RegIndex, (∀ c ∈ (AsmOperand.register i).text, AtomChar c) ∧
        (AsmOperand.register i).text ≠ [] ∧
        argumentOf (.atom (AsmOperand.register i).text) = some (.register i) := by
      intro i
      refine ⟨?_, nofun, ?_⟩
      · simp only [AsmOperand.text, List.forall_mem_cons]
        exact ⟨by simp [AtomChar, apostrophe, Char.isWhitespace], (digitChar_facts ⟨i.val, by omega⟩).1, nofun⟩
      · revert i; decide
    exact hi i
  | number n =>
    refine ⟨fun c hc => ?_, decimalText_ne_nil n n, ?_⟩
    · obtain ⟨d, rfl⟩ := decimalText_digits (le_refl n) c hc
      exact (digitChar_facts d).1
    · simp [argumentOf, AsmOperand.text, registerOf_decimalText, numberOf_decimalText]
  | char c => exact h.elim
  | label n => exact h.elim

/-- The tokens of printed operands. -/
def operandTokens : List AsmOperand → List Token
  | [] => []
  | [o] => [.atom o.text]
  | o :: os => .atom o.text :: .comma :: operandTokens os

theorem lex_operandsText {os : List AsmOperand} (h : ∀ o ∈ os, o.Plain) (r : List Char) :
    lex false [] (operandsText os ++ '\n' :: r) = operandTokens os ++ .separator :: lex false [] r := by
  induction os with
  | nil => simp [operandsText, operandTokens, lex_newline, endAtom]
  | cons o os ih =>
    obtain ⟨hp, hne, -⟩ := (h o (by simp)).text_facts
    have ih := ih (fun x hx => h x (by simp [hx]))
    cases os with
    | nil =>
      simp only [operandsText, operandTokens]
      rw [lex_atom _ hp, lex_newline, endAtom_reverse hne]
      rfl
    | cons p os =>
      simp only [operandsText, operandTokens, List.append_assoc, List.cons_append] at ih ⊢
      rw [lex_atom _ hp, lex_comma, endAtom_reverse hne, ih]

theorem argumentsOf_operandTokens {os : List AsmOperand} (h : ∀ o ∈ os, o.Plain) :
    argumentsOf (operandTokens os) = some os := by
  induction os with
  | nil => rfl
  | cons o os ih =>
    have ha := (h o (by simp)).text_facts.2.2
    have ih := ih (fun x hx => h x (by simp [hx]))
    cases os with
    | nil => simp [operandTokens, argumentsOf, ha]
    | cons p os =>
      rw [operandTokens]
      · simp only [argumentsOf, ha, ih]
      · simp

theorem operandTokens_plain (os : List AsmOperand) : ∀ t ∈ operandTokens os, t ≠ .separator ∧ t ≠ .colon := by
  induction os with
  | nil => simp [operandTokens]
  | cons o os ih =>
    cases os with
    | nil => simp [operandTokens]
    | cons p os =>
      intro t ht
      rw [operandTokens] at ht
      · rcases List.mem_cons.1 ht with rfl | ht
        · simp
        · rcases List.mem_cons.1 ht with rfl | ht
          · simp
          · exact ih t ht
      · simp

/-! ### Items -/

/-- An item that `disassemble` writes. -/
def AsmItem.Plain : AsmItem → Prop
  | .label _       => False
  | .instr op args => op.toNat ≤ 21 ∧ ∀ o ∈ args, o.Plain
  | .word _        => True

theorem mnemonic_facts : ∀ k : Fin 22,
    (∀ c ∈ mnemonics[k.val], AtomChar c) ∧ mnemonics[k.val] ≠ [] ∧ mnemonics[k.val] ≠ ".word".toList := by
  intro k; fin_cases k <;> simp [mnemonics, AtomChar, apostrophe, Char.isWhitespace]

theorem opcodeOf_mnemonic : ∀ k : Fin 22, opcodeOf mnemonics[k.val] = some (BitVec.ofNat 16 k.val) := by
  intro k; fin_cases k <;> rfl

theorem lineItems_statement (m : Text) {ts : List Token} (h : ∀ t ∈ ts, t ≠ .separator ∧ t ≠ .colon) :
    lineItems (.atom m :: ts) = (statementOf m ts).map (fun i => [i]) := by
  cases ts with
  | nil => rfl
  | cons t ts => cases t <;> first | rfl | exact absurd rfl (h _ (by simp)).2

/-- A printed item is a line of tokens that are read as that item. -/
theorem AsmItem.Plain.line {i : AsmItem} (h : i.Plain) :
    ∃ ts, (∀ r, lex false [] (i.text ++ '\n' :: r) = ts ++ .separator :: lex false [] r) ∧
      (∀ t ∈ ts, t ≠ .separator) ∧ lineItems ts = some [i] := by
  cases i with
  | label n => exact h.elim
  | word n =>
    refine ⟨[.atom ".word".toList, .atom (decimalText n n)], fun r => ?_, by simp, ?_⟩
    · have hs : ".word ".toList = ".word".toList ++ [' '] := rfl
      obtain ⟨hp, hne, -⟩ := AsmOperand.Plain.text_facts (o := .number n) trivial
      simp only [AsmOperand.text] at hp hne
      simp only [AsmItem.text, hs, List.append_assoc]
      rw [lex_atom _ (by simp [AtomChar, apostrophe, Char.isWhitespace]), List.singleton_append, lex_space,
        endAtom_reverse (by simp), lex_atom _ hp, lex_newline, endAtom_reverse hne]
      rfl
    · simp [lineItems, statementOf, numberOf_decimalText]
  | instr op args =>
    obtain ⟨hop, hargs⟩ := h
    have hlt : op.toNat < mnemonics.length := Nat.lt_succ_of_le hop
    obtain ⟨hc, hne, hw⟩ := mnemonic_facts ⟨op.toNat, hlt⟩
    have ho := opcodeOf_mnemonic ⟨op.toNat, hlt⟩
    have hm : (mnemonics[op.toNat]?).getD [] = mnemonics[op.toNat] := by simp [List.getElem?_eq_getElem hlt]
    refine ⟨.atom mnemonics[op.toNat] :: operandTokens args, fun r => ?_, fun t ht => ?_, ?_⟩
    · simp only [AsmItem.text, hm, List.append_assoc, List.cons_append]
      rw [lex_atom _ hc, lex_space, endAtom_reverse hne, lex_operandsText hargs]
    · rcases List.mem_cons.1 ht with rfl | ht
      · simp
      · exact (operandTokens_plain args t ht).1
    · rw [lineItems_statement _ (operandTokens_plain args)]
      unfold statementOf
      rw [if_neg hw, ho, argumentsOf_operandTokens hargs]
      simp

theorem tokenLines_append {ts : List Token} (h : ∀ t ∈ ts, t ≠ .separator) (us : List Token) :
    tokenLines (ts ++ .separator :: us) = ts :: tokenLines us := by
  induction ts with
  | nil => rfl
  | cons t ts ih =>
    have ih := ih (fun x hx => h x (by simp [hx]))
    have ht := h t (by simp)
    rw [List.cons_append]
    cases t <;> first | exact absurd rfl ht | (rw [tokenLines, ih]; simp)

/-- A printed program is read back as its items. -/
theorem items_of_itemsText {is : List AsmItem} (h : ∀ i ∈ is, i.Plain) :
    linesItems (tokenLines (lex false [] (itemsText is))) = some is := by
  induction is with
  | nil => rfl
  | cons i is ih =>
    obtain ⟨ts, hl, hs, hi⟩ := (h i (by simp)).line
    rw [itemsText, hl, tokenLines_append hs, linesItems, hi, ih (fun x hx => h x (by simp [hx]))]
    rfl

end Sys2Proof.Machine
end

