-- ==== Sys2Proof/Laws/Outcome.lean ====
section
/-! SUPPORT. Handlers written with `do`: when a sequence succeeds, and what `conclude` makes of it. -/

namespace Sys2Proof.Machine

variable {α β : Type}

@[simp] theorem ok_bind (a : α) (f : α → Except Stop β) : ((Except.ok a : Except Stop α) >>= f) = f a := rfl

@[simp] theorem error_bind (e : Stop) (f : α → Except Stop β) :
    ((Except.error e : Except Stop α) >>= f) = .error e := rfl

theorem bind_eq_ok {x : Except Stop α} {f : α → Except Stop β} {b : β} :
    (x >>= f) = .ok b ↔ ∃ a, x = .ok a ∧ f a = .ok b := by
  cases x <;> simp

theorem bind_eq_error {x : Except Stop α} {f : α → Except Stop β} {e : Stop} :
    (x >>= f) = .error e ↔ x = .error e ∨ ∃ a, x = .ok a ∧ f a = .error e := by
  cases x <;> simp

theorem pure_eq_ok {a b : α} : (pure a : Except Stop α) = .ok b ↔ b = a := by
  simp [pure, Except.pure, eq_comm]

theorem pure_ne_error {a : α} {e : Stop} : (pure a : Except Stop α) ≠ .error e := nofun

@[simp] theorem conclude_ok (s t : State) : conclude s (.ok t) = .next t := rfl

@[simp] theorem conclude_pure (s t : State) : conclude s (pure t) = .next t := rfl

@[simp] theorem conclude_raise (s : State) (k : FaultKind) :
    conclude s (.error (.raise k)) = .next (s.raise k s.pc) := rfl

@[simp] theorem conclude_stuck (s : State) (f : Fault) : conclude s (.error (.stuck f)) = .fault f := rfl

/-- A handler's outcome is a next state exactly when it built that state or took fault entry (R128). -/
theorem conclude_eq_next {s t : State} {h : Except Stop State} :
    conclude s h = .next t ↔ h = .ok t ∨ ∃ k, h = .error (.raise k) ∧ t = s.raise k s.pc := by
  cases h with
  | ok u => simp [eq_comm]
  | error e => cases e <;> simp [eq_comm]

/-- No step: the handler is stuck. -/
theorem conclude_eq_fault {s : State} {h : Except Stop State} {f : Fault} :
    conclude s h = .fault f ↔ h = .error (.stuck f) := by
  cases h with
  | ok u => simp
  | error e => cases e <;> simp

theorem conclude_ne_refused {s : State} {h : Except Stop State} {r : Refusal} : conclude s h ≠ .refused r := by
  cases h with
  | ok u => simp
  | error e => cases e <;> simp

end Sys2Proof.Machine
end

