-- ==== Sys2Proof/Laws/Operands.lean ====
section
/-! SUPPORT. Operand words and their two uses (30_encoding.md R95, R97, R98), addresses and targets (R99, R170). -/

namespace Sys2Proof

theorem operandOf_wf (w : Word) : (operandOf w).wf = true := by
  unfold operandOf
  split
  · rfl
  · split
    · rfl
    · simp [Operand.wf]; omega

theorem word_operandOf (w : Word) : (operandOf w).word = w := by
  unfold operandOf
  split
  · next h => apply BitVec.eq_of_toNat_eq; simp [Operand.word]; omega
  · split
    · next h1 h2 => apply BitVec.eq_of_toNat_eq; simp [Operand.word]; omega
    · rfl

theorem operandOf_word (o : Operand) (h : o.wf = true) : operandOf o.word = o := by
  cases o with
  | literal v =>
    have hv := v.isLt
    have h1 : (v.setWidth 16).toNat = v.toNat := by simp; omega
    simp only [Operand.word, operandOf, h1]
    rw [if_pos (by omega)]
    congr 1
    apply BitVec.eq_of_toNat_eq
    simp
  | register i =>
    have hi := i.isLt
    have h1 : (BitVec.ofNat 16 (32768 + i.val)).toNat = 32768 + i.val := by simp; omega
    simp only [Operand.word, operandOf, h1]
    rw [if_neg (by omega), dif_pos (by omega)]
    simp
  | invalid w =>
    simp only [Operand.wf, decide_eq_true_eq] at h
    change operandOf w = .invalid w
    rw [operandOf, if_neg (by omega), dif_neg (by omega)]

namespace Machine

theorem resolve_eq_error {o : Operand} {s : State} {e : Stop} :
    resolve o s = .error e ↔ (∃ w, o = .invalid w) ∧ e = .raise .invalidOperand := by
  cases o <;> simp [resolve, eq_comm]

theorem dest_eq_ok {o : Operand} {i : RegIndex} : dest o = .ok i ↔ o = .register i := by
  cases o <;> simp [dest]

theorem dest_eq_error {o : Operand} {e : Stop} :
    dest o = .error e ↔ (∀ d, o ≠ .register d) ∧ e = .raise .invalidDestination := by
  cases o <;> simp [dest, eq_comm]

theorem checkTarget_eq_ok {v : Word} {t : Nat} : checkTarget v = .ok t ↔ v.toNat ≤ 32767 ∧ t = v.toNat := by
  unfold checkTarget
  split <;> simp [*, eq_comm]

theorem checkTarget_eq_error {v : Word} {e : Stop} :
    checkTarget v = .error e ↔ 32767 < v.toNat ∧ e = .raise .invalidAddress := by
  unfold checkTarget
  split
  · simp; omega
  · next h => simp [eq_comm]; intro _; omega

theorem resolveTarget_eq_ok {o : Operand} {s : State} {t : Nat} :
    resolveTarget o s = .ok t ↔ ∃ v, resolve o s = .ok v ∧ v.toNat ≤ 32767 ∧ t = v.toNat := by
  simp only [resolveTarget, bind_eq_ok, checkTarget_eq_ok]

theorem resolveTarget_eq_error {o : Operand} {s : State} {e : Stop} :
    resolveTarget o s = .error e ↔
      ((∃ w, o = .invalid w) ∧ e = .raise .invalidOperand) ∨
      ∃ v, resolve o s = .ok v ∧ 32767 < v.toNat ∧ e = .raise .invalidAddress := by
  simp only [resolveTarget, bind_eq_error, resolve_eq_error, checkTarget_eq_error]

theorem memRead_eq_ok {a : Nat} {s : State} {v : Word} :
    memRead a s = .ok v ↔ a ≤ 32767 ∧ v = s.mem.read a := by
  unfold memRead
  split <;> simp [*, eq_comm]

theorem memRead_eq_error {a : Nat} {s : State} {e : Stop} :
    memRead a s = .error e ↔ 32767 < a ∧ e = .raise .invalidAddress := by
  unfold memRead
  split
  · simp; omega
  · simp [eq_comm]; intro _; omega

theorem memWrite_eq_ok {a : Nat} {v : Word} {s t : State} :
    memWrite a v s = .ok t ↔ a ≤ 32767 ∧ t = { s with mem := s.mem.write a v } := by
  unfold memWrite
  split <;> simp [*, eq_comm]

theorem memWrite_eq_error {a : Nat} {v : Word} {s : State} {e : Stop} :
    memWrite a v s = .error e ↔ 32767 < a ∧ e = .raise .invalidAddress := by
  unfold memWrite
  split
  · simp; omega
  · simp [eq_comm]; intro _; omega

/-- What `takeByte` gives when it succeeds: the next pending byte, or the sentinel of an ended source (R231, R232). -/
theorem takeByte_eq_ok {s t : State} {b : Byte} :
    s.takeByte = .ok (b, t) ↔
      (∃ later, s.input.pending = b :: later ∧ t = { s with input := { s.input with pending := later } }) ∨
      (s.input.pending = [] ∧ s.input.ended = true ∧ s.cfg.inEof = .sentinel b ∧ t = s) := by
  unfold State.takeByte
  cases hp : s.input.pending with
  | cons c later =>
    simp only [Except.ok.injEq, Prod.mk.injEq, List.cons.injEq, reduceCtorEq, false_and, or_false]
    constructor
    · rintro ⟨rfl, rfl⟩; exact ⟨later, ⟨rfl, rfl⟩, rfl⟩
    · rintro ⟨_, ⟨rfl, rfl⟩, rfl⟩; exact ⟨rfl, rfl⟩
  | nil =>
    by_cases he : s.input.ended = true
    · cases hf : s.cfg.inEof <;> simp [he, eq_comm]
    · simp [he]

/-- When `takeByte` gives no byte: the wait of R55, or InputExhausted under IN_EOF = Fail (R232). -/
theorem takeByte_eq_error {s : State} {e : Stop} :
    s.takeByte = .error e ↔
      s.input.pending = [] ∧
      ((e = .stuck .waitingForInput ∧ (s.input.ended = true → s.cfg.inEof = .block)) ∨
       (e = .raise .inputExhausted ∧ s.input.ended = true ∧ s.cfg.inEof = .fail)) := by
  unfold State.takeByte
  cases hp : s.input.pending with
  | cons c later => simp
  | nil =>
    by_cases he : s.input.ended = true
    · cases hf : s.cfg.inEof <;> simp [he, eq_comm]
    · simp [he, eq_comm]

end Machine

end Sys2Proof
end

