-- ==== Sys2Proof/Laws/Fetch.lean ====
section
/-! SUPPORT. The fetch (40_execution_loop.md R121 to R123): which words it reads, and that they always decode. -/

namespace Sys2Proof

/-- The decoder fails only for want of operand words, and reads as many as R93 says. -/
theorem decodeOpcode_cases (op : Word) (ws : List Word) :
    (arity op ≤ ws.length ∧ ∃ i, decodeOpcode op ws = .ok (i, ws.drop (arity op))) ∨
    (ws.length < arity op ∧ ∃ e, decodeOpcode op ws = .error e) := by
  unfold decodeOpcode arity
  split <;> rcases ws with _ | ⟨a, _ | ⟨b, _ | ⟨c, ws⟩⟩⟩ <;> simp [formatW0, formatW1, formatW2, formatW3]

namespace Machine

theorem checkRunning_eq_ok {s : State} : checkRunning s = .ok () ↔ s.run = .running := by
  unfold checkRunning
  cases s.run <;> simp

theorem readWords_eq_ok {s : State} {a k : Nat} {ws : List Word} :
    readWords s a k = .ok ws ↔
      (∀ j, j < k → a + j ≤ 32767) ∧ ws.length = k ∧ ∀ j, (h : j < ws.length) → ws[j] = s.mem.read (a + j) := by
  induction k generalizing a ws with
  | zero =>
    simp only [readWords, Except.ok.injEq, Nat.not_lt_zero, false_implies, implies_true, true_and]
    constructor
    · rintro rfl; simp
    · rintro ⟨h, -⟩; exact (List.length_eq_zero_iff.1 h).symm
  | succ k ih =>
    simp only [readWords, bind_eq_ok, memRead_eq_ok, pure_eq_ok, ih]
    constructor
    · rintro ⟨w, ⟨ha, rfl⟩, vs, ⟨h1, h2, h3⟩, rfl⟩
      refine ⟨?_, by simp [h2], ?_⟩
      · intro j hj
        cases j with
        | zero => exact ha
        | succ j => have := h1 j (by omega); omega
      · intro j hj
        cases j with
        | zero => rfl
        | succ j =>
          simp only [List.length_cons] at hj
          simp only [List.getElem_cons_succ, h3 j (by omega)]
          congr 1; omega
    · rintro ⟨h1, h2, h3⟩
      cases ws with
      | nil => simp at h2
      | cons w ws =>
        simp only [List.length_cons, Nat.add_right_cancel_iff] at h2
        refine ⟨w, ⟨h1 0 (by omega), h3 0 (by simp)⟩, ws, ⟨?_, h2, ?_⟩, rfl⟩
        · intro j hj; have := h1 (j + 1) (by omega); omega
        · intro j hj
          have := h3 (j + 1) (by simp; omega)
          simp only [List.getElem_cons_succ] at this
          rw [this]; congr 1; omega

theorem readWords_eq_error {s : State} {a k : Nat} {e : Stop} :
    readWords s a k = .error e ↔ (∃ j, j < k ∧ 32767 < a + j) ∧ e = .raise .invalidAddress := by
  induction k generalizing a with
  | zero => simp [readWords]
  | succ k ih =>
    simp only [readWords, bind_eq_error, memRead_eq_ok, memRead_eq_error, pure_ne_error, and_false, exists_false,
      or_false, ih]
    constructor
    · rintro (⟨h, rfl⟩ | ⟨w, ⟨_, rfl⟩, ⟨j, hj, h⟩, rfl⟩)
      · exact ⟨⟨0, by omega, h⟩, rfl⟩
      · exact ⟨⟨j + 1, by omega, by omega⟩, rfl⟩
    · rintro ⟨⟨j, hj, h⟩, rfl⟩
      by_cases ha : 32767 < a
      · exact .inl ⟨ha, rfl⟩
      · cases j with
        | zero => exact absurd h ha
        | succ j => exact .inr ⟨_, ⟨by omega, rfl⟩, ⟨j, by omega, by omega⟩, rfl⟩

/-- The words the fetch reads always decode: `decodeFetched` never fails on them (log 18). -/
theorem fetched_words_decode {op : Word} {ws : List Word} (h : ws.length = arity op) :
    ∃ i, decodeOpcode op ws = .ok (i, []) ∧ decodeFetched (op :: ws) = .ok i := by
  rcases decodeOpcode_cases op ws with ⟨_, i, hi⟩ | ⟨h', _⟩
  · rw [← h, List.drop_length] at hi
    exact ⟨i, hi, by simp [decodeFetched, decode, hi]⟩
  · omega

/-- A fetched instruction: the machine runs, its words lie in memory at pc, and they decode to it. -/
theorem fetchInstr_eq_ok {s : State} {i : Instr} :
    fetchInstr s = .ok i ↔ s.run = .running ∧ s.pc + arity (s.mem.read s.pc) ≤ 32767 ∧
      ∃ ws, ws.length = arity (s.mem.read s.pc) ∧
        (∀ j, (h : j < ws.length) → ws[j] = s.mem.read (s.pc + 1 + j)) ∧
        decode (s.mem.read s.pc :: ws) = .ok (i, []) := by
  simp only [fetchInstr, bind_eq_ok, memRead_eq_ok, readWords_eq_ok]
  constructor
  · rintro ⟨⟨⟩, hr, op, ⟨hpc, rfl⟩, ws, ⟨h1, h2, h3⟩, hd⟩
    obtain ⟨i', hi, hd'⟩ := fetched_words_decode h2
    obtain rfl : i' = i := by rw [hd'] at hd; exact Except.ok.inj hd
    refine ⟨checkRunning_eq_ok.1 hr, ?_, ws, h2, h3, hi⟩
    cases hk : arity (s.mem.read s.pc) with
    | zero => exact hpc
    | succ k => have := h1 k (by omega); omega
  · rintro ⟨hr, hpc, ws, h2, h3, hd⟩
    refine ⟨(), checkRunning_eq_ok.2 hr, _, ⟨by omega, rfl⟩, ws, ⟨fun j hj => by omega, h2, h3⟩, ?_⟩
    simp [decodeFetched, hd]

/-- A fetch that gives no instruction: the machine does not run, or a word lies beyond memory. -/
theorem fetchInstr_eq_error {s : State} {e : Stop} :
    fetchInstr s = .error e ↔
      (s.run = .halted ∧ e = .stuck .haltedIsTerminal) ∨ (s.run = .failed ∧ e = .stuck .failedIsTerminal) ∨
      (s.run = .running ∧ 32767 < s.pc + arity (s.mem.read s.pc) ∧ e = .raise .invalidAddress) ∨
      (s.run = .running ∧ 32767 < s.pc ∧ e = .raise .invalidAddress) := by
  cases hr : s.run with
  | halted => simp [fetchInstr, checkRunning, hr, eq_comm]
  | failed => simp [fetchInstr, checkRunning, hr, eq_comm]
  | running =>
    simp only [fetchInstr, checkRunning, hr, ok_bind, reduceCtorEq, false_and, false_or, true_and]
    rw [bind_eq_error]
    simp only [memRead_eq_ok, memRead_eq_error, bind_eq_error, readWords_eq_error]
    constructor
    · rintro (⟨h, rfl⟩ | ⟨_, ⟨h, rfl⟩, ⟨⟨j, hj, h'⟩, rfl⟩ | ⟨ws, hw, hd⟩⟩)
      · exact .inr ⟨h, rfl⟩
      · exact .inl ⟨by omega, rfl⟩
      · obtain ⟨i, -, hi⟩ := fetched_words_decode (readWords_eq_ok.1 hw).2.1
        rw [hi] at hd; cases hd
    · intro h
      by_cases hpc : 32767 < s.pc
      · exact .inl ⟨hpc, by rcases h with h | h <;> exact h.2⟩
      · obtain ⟨h, rfl⟩ | ⟨h, -⟩ := h
        · exact .inr ⟨_, ⟨by omega, rfl⟩, .inl ⟨⟨arity (s.mem.read s.pc) - 1, by omega, by omega⟩, rfl⟩⟩
        · exact absurd h hpc

/-- A step that gives a next state ran the fetched instruction, or raised InvalidAddress at the fetch. -/
theorem step_eq_next {s t : State} (h : step s = .next t) :
    s.run = .running ∧
    ((∃ i, fetchInstr s = .ok i ∧ exec i s = .next t) ∨ t = s.raise .invalidAddress s.pc) := by
  unfold step at h
  split at h
  · next i hi => exact ⟨(fetchInstr_eq_ok.1 hi).1, .inl ⟨i, hi, h⟩⟩
  · next e he =>
    rcases fetchInstr_eq_error.1 he with ⟨hr, rfl⟩ | ⟨hr, rfl⟩ | ⟨hr, -, rfl⟩ | ⟨hr, -, rfl⟩
    · simp at h
    · simp at h
    · exact ⟨hr, .inr (by simpa [eq_comm] using h)⟩
    · exact ⟨hr, .inr (by simpa [eq_comm] using h)⟩

end Machine

end Sys2Proof
end

