-- ==== Sys2Proof/Laws/State.lean ====
section
/-! SUPPORT. The fields of a state after each update, so that no proof unfolds one. -/

namespace Sys2Proof.Machine

variable (s : State)

@[simp] theorem State.setReg_mem (i : RegIndex) (v : Word) : (s.setReg i v).mem = s.mem := rfl
@[simp] theorem State.setReg_x (i : RegIndex) (v : Word) : (s.setReg i v).x = s.x.set i v := rfl
@[simp] theorem State.setReg_pc (i : RegIndex) (v : Word) : (s.setReg i v).pc = s.pc := rfl
@[simp] theorem State.setReg_stack (i : RegIndex) (v : Word) : (s.setReg i v).stack = s.stack := rfl
@[simp] theorem State.setReg_run (i : RegIndex) (v : Word) : (s.setReg i v).run = s.run := rfl
@[simp] theorem State.setReg_fault (i : RegIndex) (v : Word) : (s.setReg i v).fault = s.fault := rfl
@[simp] theorem State.setReg_outlog (i : RegIndex) (v : Word) : (s.setReg i v).outlog = s.outlog := rfl
@[simp] theorem State.setReg_input (i : RegIndex) (v : Word) : (s.setReg i v).input = s.input := rfl
@[simp] theorem State.setReg_cfg (i : RegIndex) (v : Word) : (s.setReg i v).cfg = s.cfg := rfl

@[simp] theorem State.advance_mem (k : Nat) : (s.advance k).mem = s.mem := rfl
@[simp] theorem State.advance_x (k : Nat) : (s.advance k).x = s.x := rfl
@[simp] theorem State.advance_pc (k : Nat) : (s.advance k).pc = s.pc + k := rfl
@[simp] theorem State.advance_stack (k : Nat) : (s.advance k).stack = s.stack := rfl
@[simp] theorem State.advance_run (k : Nat) : (s.advance k).run = s.run := rfl
@[simp] theorem State.advance_fault (k : Nat) : (s.advance k).fault = s.fault := rfl
@[simp] theorem State.advance_outlog (k : Nat) : (s.advance k).outlog = s.outlog := rfl
@[simp] theorem State.advance_input (k : Nat) : (s.advance k).input = s.input := rfl
@[simp] theorem State.advance_cfg (k : Nat) : (s.advance k).cfg = s.cfg := rfl

@[simp] theorem State.jumpTo_mem (k : Nat) : (s.jumpTo k).mem = s.mem := rfl
@[simp] theorem State.jumpTo_x (k : Nat) : (s.jumpTo k).x = s.x := rfl
@[simp] theorem State.jumpTo_pc (k : Nat) : (s.jumpTo k).pc = k := rfl
@[simp] theorem State.jumpTo_stack (k : Nat) : (s.jumpTo k).stack = s.stack := rfl
@[simp] theorem State.jumpTo_run (k : Nat) : (s.jumpTo k).run = s.run := rfl
@[simp] theorem State.jumpTo_fault (k : Nat) : (s.jumpTo k).fault = s.fault := rfl
@[simp] theorem State.jumpTo_outlog (k : Nat) : (s.jumpTo k).outlog = s.outlog := rfl
@[simp] theorem State.jumpTo_input (k : Nat) : (s.jumpTo k).input = s.input := rfl
@[simp] theorem State.jumpTo_cfg (k : Nat) : (s.jumpTo k).cfg = s.cfg := rfl

@[simp] theorem State.dropTop_mem : (s.dropTop).mem = s.mem := rfl
@[simp] theorem State.dropTop_x : (s.dropTop).x = s.x := rfl
@[simp] theorem State.dropTop_pc : (s.dropTop).pc = s.pc := rfl
@[simp] theorem State.dropTop_stack : (s.dropTop).stack = s.stack.dropLast := rfl
@[simp] theorem State.dropTop_run : (s.dropTop).run = s.run := rfl
@[simp] theorem State.dropTop_fault : (s.dropTop).fault = s.fault := rfl
@[simp] theorem State.dropTop_outlog : (s.dropTop).outlog = s.outlog := rfl
@[simp] theorem State.dropTop_input : (s.dropTop).input = s.input := rfl
@[simp] theorem State.dropTop_cfg : (s.dropTop).cfg = s.cfg := rfl

@[simp] theorem State.emit_mem (b : Byte) : (s.emit b).mem = s.mem := rfl
@[simp] theorem State.emit_x (b : Byte) : (s.emit b).x = s.x := rfl
@[simp] theorem State.emit_pc (b : Byte) : (s.emit b).pc = s.pc := rfl
@[simp] theorem State.emit_stack (b : Byte) : (s.emit b).stack = s.stack := rfl
@[simp] theorem State.emit_run (b : Byte) : (s.emit b).run = s.run := rfl
@[simp] theorem State.emit_fault (b : Byte) : (s.emit b).fault = s.fault := rfl
@[simp] theorem State.emit_outlog (b : Byte) : (s.emit b).outlog = s.outlog ++ [b] := rfl
@[simp] theorem State.emit_input (b : Byte) : (s.emit b).input = s.input := rfl
@[simp] theorem State.emit_cfg (b : Byte) : (s.emit b).cfg = s.cfg := rfl

@[simp] theorem State.raise_mem (k : FaultKind) (c : Nat) : (s.raise k c).mem = s.mem := rfl
@[simp] theorem State.raise_x (k : FaultKind) (c : Nat) : (s.raise k c).x = s.x := rfl
@[simp] theorem State.raise_pc (k : FaultKind) (c : Nat) : (s.raise k c).pc = s.pc := rfl
@[simp] theorem State.raise_stack (k : FaultKind) (c : Nat) : (s.raise k c).stack = s.stack := rfl
@[simp] theorem State.raise_run (k : FaultKind) (c : Nat) : (s.raise k c).run = .failed := rfl
@[simp] theorem State.raise_fault (k : FaultKind) (c : Nat) : (s.raise k c).fault = some { kind := k, cursor := c } := rfl
@[simp] theorem State.raise_outlog (k : FaultKind) (c : Nat) : (s.raise k c).outlog = s.outlog := rfl
@[simp] theorem State.raise_input (k : FaultKind) (c : Nat) : (s.raise k c).input = s.input := rfl
@[simp] theorem State.raise_cfg (k : FaultKind) (c : Nat) : (s.raise k c).cfg = s.cfg := rfl

@[simp] theorem State.halt_mem : (s.halt).mem = s.mem := rfl
@[simp] theorem State.halt_x : (s.halt).x = s.x := rfl
@[simp] theorem State.halt_pc : (s.halt).pc = s.pc := rfl
@[simp] theorem State.halt_stack : (s.halt).stack = s.stack := rfl
@[simp] theorem State.halt_run : (s.halt).run = .halted := rfl
@[simp] theorem State.halt_fault : (s.halt).fault = s.fault := rfl
@[simp] theorem State.halt_outlog : (s.halt).outlog = s.outlog := rfl
@[simp] theorem State.halt_input : (s.halt).input = s.input := rfl
@[simp] theorem State.halt_cfg : (s.halt).cfg = s.cfg := rfl

@[simp] theorem State.endInput_mem : (s.endInput).mem = s.mem := rfl
@[simp] theorem State.endInput_x : (s.endInput).x = s.x := rfl
@[simp] theorem State.endInput_pc : (s.endInput).pc = s.pc := rfl
@[simp] theorem State.endInput_stack : (s.endInput).stack = s.stack := rfl
@[simp] theorem State.endInput_run : (s.endInput).run = s.run := rfl
@[simp] theorem State.endInput_fault : (s.endInput).fault = s.fault := rfl
@[simp] theorem State.endInput_outlog : (s.endInput).outlog = s.outlog := rfl
@[simp] theorem State.endInput_input : (s.endInput).input = { s.input with ended := true } := rfl
@[simp] theorem State.endInput_cfg : (s.endInput).cfg = s.cfg := rfl

@[simp] theorem State.supply_mem (b : Byte) : (s.supply b).mem = s.mem := by
  unfold State.supply; split <;> rfl
@[simp] theorem State.supply_x (b : Byte) : (s.supply b).x = s.x := by
  unfold State.supply; split <;> rfl
@[simp] theorem State.supply_pc (b : Byte) : (s.supply b).pc = s.pc := by
  unfold State.supply; split <;> rfl
@[simp] theorem State.supply_stack (b : Byte) : (s.supply b).stack = s.stack := by
  unfold State.supply; split <;> rfl
@[simp] theorem State.supply_run (b : Byte) : (s.supply b).run = s.run := by
  unfold State.supply; split <;> rfl
@[simp] theorem State.supply_fault (b : Byte) : (s.supply b).fault = s.fault := by
  unfold State.supply; split <;> rfl
@[simp] theorem State.supply_outlog (b : Byte) : (s.supply b).outlog = s.outlog := by
  unfold State.supply; split <;> rfl
@[simp] theorem State.supply_input (b : Byte) :
    (s.supply b).input = if s.input.ended then s.input else { s.input with pending := s.input.pending ++ [b] } := by
  unfold State.supply; split <;> rfl
@[simp] theorem State.supply_cfg (b : Byte) : (s.supply b).cfg = s.cfg := by
  unfold State.supply; split <;> rfl

theorem State.reg_eq (i : RegIndex) : s.reg i = s.x[i] := rfl

/-- A register reads as what was last written to it, and a write leaves the others alone (R31, R32). -/
theorem State.reg_setReg (i j : RegIndex) (v : Word) : (s.setReg i v).reg j = if j = i then v else s.reg j := by
  simp only [State.reg, State.setReg, Fin.getElem_fin, Vector.getElem_set, Fin.ext_iff, eq_comm]

@[simp] theorem State.reg_setReg_self (i : RegIndex) (v : Word) : (s.setReg i v).reg i = v := by
  simp [State.reg_setReg]

@[simp] theorem State.reg_advance (k : Nat) (i : RegIndex) : (s.advance k).reg i = s.reg i := rfl
@[simp] theorem State.reg_jumpTo (k : Nat) (i : RegIndex) : (s.jumpTo k).reg i = s.reg i := rfl
@[simp] theorem State.reg_dropTop (i : RegIndex) : (s.dropTop).reg i = s.reg i := rfl
@[simp] theorem State.reg_emit (b : Byte) (i : RegIndex) : (s.emit b).reg i = s.reg i := rfl
@[simp] theorem State.reg_raise (k : FaultKind) (c : Nat) (i : RegIndex) : (s.raise k c).reg i = s.reg i := rfl
@[simp] theorem State.reg_halt (i : RegIndex) : (s.halt).reg i = s.reg i := rfl
@[simp] theorem State.reg_endInput (i : RegIndex) : (s.endInput).reg i = s.reg i := rfl

/-- A push gives the state with the entry on top, and happens exactly when STACK_CAPACITY leaves room (R44). -/
theorem State.push_eq_ok {s t : State} {v : Word} :
    s.push v = .ok t ↔ (∀ n, s.cfg.stackCapacity = some n → s.stack.length < n) ∧ t = { s with stack := s.stack ++ [v] } := by
  unfold State.push
  cases s.cfg.stackCapacity with
  | none => simp only [Except.ok.injEq, reduceCtorEq, false_implies, implies_true, true_and, eq_comm]
  | some n =>
    by_cases h : s.stack.length + 1 ≤ n
    · simp only [h, if_true, Except.ok.injEq, Option.some.injEq, forall_eq', eq_comm (a := t), Nat.lt_iff_add_one_le,
        true_and]
    · simp only [h, if_false, reduceCtorEq, Option.some.injEq, forall_eq', Nat.lt_iff_add_one_le, false_and]

/-- A push that does not happen is stuck, and raises nothing (R44). -/
theorem State.push_eq_error {s : State} {v : Word} {e : Stop} (h : s.push v = .error e) :
    e = .stuck .stackFull ∧ ∃ n, s.cfg.stackCapacity = some n ∧ n ≤ s.stack.length := by
  unfold State.push at h
  cases hc : s.cfg.stackCapacity with
  | none => simp [hc] at h
  | some n =>
    by_cases hl : s.stack.length + 1 ≤ n <;> simp [hc, hl] at h
    exact ⟨h.symm, n, rfl, by omega⟩

end Sys2Proof.Machine
end

