-- ==== Sys2Proof/Laws/Effect.lean ====
section
/-! SUPPORT. What each instruction can do, said once: if `exec` answers a next state, that state is the instruction's
effect, or fault entry (40_execution_loop.md R128); and when it answers that there is no step. -/

namespace Sys2Proof.Machine

/-- The state an instruction with one destination and two value operands builds. -/
def ThreeOperandEffect (f : Word → Word → Except Stop Word) (a b c : Operand) (s t : State) : Prop :=
  ∃ d vb vc v, a = .register d ∧ resolve b s = .ok vb ∧ resolve c s = .ok vc ∧ f vb vc = .ok v ∧
    t = (s.setReg d v).advance 4

/-- There is room on the stack (R44). -/
def Room (s : State) : Prop := ∀ n, s.cfg.stackCapacity = some n → s.stack.length < n

/-- The effect of each instruction when it does not fault. -/
def Effect (i : Instr) (s t : State) : Prop :=
  match i with
  | .halt => t = s.halt
  | .set a b => ∃ d v, a = .register d ∧ resolve b s = .ok v ∧ t = (s.setReg d v).advance 3
  | .push a => ∃ v, resolve a s = .ok v ∧ Room s ∧ t = { s with stack := s.stack ++ [v], pc := s.pc + 2 }
  | .pop a => ∃ d v, a = .register d ∧ s.top = some v ∧ t = (s.dropTop.setReg d v).advance 2
  | .eq a b c => ThreeOperandEffect (fun vb vc => .ok (truthWord (decide (vb = vc)))) a b c s t
  | .gt a b c => ThreeOperandEffect (fun vb vc => .ok (truthWord (decide (vb.toNat > vc.toNat)))) a b c s t
  | .jmp a => ∃ v, resolve a s = .ok v ∧ v.toNat ≤ 32767 ∧ t = s.jumpTo v.toNat
  | .jt a b => ∃ v, resolve a s = .ok v ∧
      ((v ≠ 0 ∧ ∃ u, resolve b s = .ok u ∧ u.toNat ≤ 32767 ∧ t = s.jumpTo u.toNat) ∨ (v = 0 ∧ t = s.advance 3))
  | .jf a b => ∃ v, resolve a s = .ok v ∧
      ((v = 0 ∧ ∃ u, resolve b s = .ok u ∧ u.toNat ≤ 32767 ∧ t = s.jumpTo u.toNat) ∨ (v ≠ 0 ∧ t = s.advance 3))
  | .add a b c => ThreeOperandEffect (fun vb vc => .ok (addValue vb vc)) a b c s t
  | .mult a b c => ThreeOperandEffect (fun vb vc => .ok (multValue vb vc)) a b c s t
  | .mod a b c => ThreeOperandEffect modValue a b c s t
  | .and a b c => ThreeOperandEffect (fun vb vc => .ok (mask15 (vb &&& vc))) a b c s t
  | .or a b c => ThreeOperandEffect (fun vb vc => .ok (mask15 (vb ||| vc))) a b c s t
  | .not a b => ∃ d v, a = .register d ∧ resolve b s = .ok v ∧ t = (s.setReg d (mask15 (~~~v))).advance 3
  | .rmem a b => ∃ d v, a = .register d ∧ resolve b s = .ok v ∧ v.toNat ≤ 32767 ∧
      t = (s.setReg d (widen s.cfg (s.mem.read v.toNat))).advance 3
  | .wmem a b => ∃ addr v, resolve a s = .ok addr ∧ resolve b s = .ok v ∧ addr.toNat ≤ 32767 ∧
      t = { s with mem := s.mem.write addr.toNat v, pc := s.pc + 3 }
  | .call a => ∃ v, resolve a s = .ok v ∧ v.toNat ≤ 32767 ∧ Room s ∧
      t = { s with stack := s.stack ++ [BitVec.ofNat 16 (s.pc + 2)], pc := v.toNat }
  | .ret => (s.top = none ∧ t = s.halt) ∨
      ∃ e, s.top = some e ∧ e.toNat ≤ 32767 ∧ t = s.dropTop.jumpTo e.toNat
  | .out a => ∃ v, resolve a s = .ok v ∧ t = (s.emit (v.setWidth 8)).advance 2
  | .inp a => ∃ d b u, a = .register d ∧ s.takeByte = .ok (b, u) ∧ t = (u.setReg d (b.setWidth 16)).advance 2
  | .noop => t = s.advance 1
  | .unknown _ => t = s.advance 1

/-- Fault entry, with a kind that a running machine can raise. -/
def FaultEntry (s t : State) : Prop :=
  ∃ k, k ≠ .imageTooLarge ∧ (k = .inputExhausted → s.cfg.inEof = .fail) ∧ t = s.raise k s.pc

theorem faultEntry_raise (s : State) (k : FaultKind) (h1 : k ≠ .imageTooLarge)
    (h2 : k = .inputExhausted → s.cfg.inEof = .fail) : FaultEntry s (s.raise k s.pc) :=
  ⟨k, h1, h2, rfl⟩

theorem threeOperand_next {f : Word → Word → Except Stop Word} {a b c : Operand} {s t : State}
    (hf : ∀ vb vc k, f vb vc = .error (.raise k) → k ≠ .imageTooLarge ∧ k ≠ .inputExhausted)
    (h : threeOperand f a b c s = .next t) : ThreeOperandEffect f a b c s t ∨ FaultEntry s t := by
  rw [threeOperand, conclude_eq_next] at h
  simp only [bind_eq_ok, bind_eq_error, dest_eq_ok, dest_eq_error, resolve_eq_error, pure_eq_ok, pure_ne_error,
    Stop.raise.injEq, and_false, exists_false, or_false] at h
  rcases h with ⟨d, rfl, vb, hb, vc, hc, v, hv, rfl⟩ | ⟨k, h, rfl⟩
  · exact .inl ⟨d, vb, vc, v, rfl, hb, hc, hv, rfl⟩
  · refine .inr ⟨k, ?_, ?_, rfl⟩ <;>
      rcases h with ⟨-, rfl⟩ | ⟨_, -, ⟨-, rfl⟩ | ⟨vb, -, ⟨-, rfl⟩ | ⟨vc, -, h⟩⟩⟩ <;>
      first
        | exact FaultKind.noConfusion
        | exact (hf _ _ _ h).1
        | exact fun hk => absurd hk (hf _ _ _ h).2

theorem modValue_error {vb vc : Word} {e : Stop} (h : modValue vb vc = .error e) :
    vc = 0 ∧ e = .raise .arithmeticFault := by
  unfold modValue at h
  split at h
  · exact ⟨‹_›, by simpa [eq_comm] using h⟩
  · simp at h

theorem branchWhen_next {p : Word → Bool} {a b : Operand} {s t : State} (h : branchWhen p a b s = .next t) :
    (∃ v, resolve a s = .ok v ∧
      ((p v = true ∧ ∃ u, resolve b s = .ok u ∧ u.toNat ≤ 32767 ∧ t = s.jumpTo u.toNat) ∨
       (p v = false ∧ t = s.advance 3))) ∨ FaultEntry s t := by
  rw [branchWhen, conclude_eq_next] at h
  simp only [bind_eq_ok, bind_eq_error, resolve_eq_error] at h
  rcases h with ⟨v, hv, h⟩ | ⟨k, ⟨-, h⟩ | ⟨v, hv, h⟩, rfl⟩
  · refine .inl ⟨v, hv, ?_⟩
    cases hp : p v
    · simp only [hp, Bool.false_eq_true, if_false, pure_eq_ok] at h
      exact .inr ⟨rfl, h⟩
    · simp only [hp, if_true, bind_eq_ok, resolveTarget_eq_ok, pure_eq_ok] at h
      obtain ⟨_, ⟨u, hu, hle, rfl⟩, rfl⟩ := h
      exact .inl ⟨rfl, u, hu, hle, rfl⟩
  · obtain rfl := Stop.raise.inj h
    exact .inr (faultEntry_raise _ _ nofun nofun)
  · cases hp : p v
    · simp only [hp, Bool.false_eq_true, if_false, pure_ne_error] at h
    · simp only [hp, if_true, bind_eq_error, resolveTarget_eq_error, pure_ne_error, and_false, exists_false,
        or_false, Stop.raise.injEq] at h
      rcases h with ⟨-, rfl⟩ | ⟨u, -, -, rfl⟩ <;> exact .inr (faultEntry_raise _ _ nofun nofun)

theorem isNonzero_eq_true {v : Word} : isNonzero v = true ↔ v ≠ 0 := by simp [isNonzero]

theorem isNonzero_eq_false {v : Word} : isNonzero v = false ↔ v = 0 := by simp [isNonzero]

/-- Every next state of an instruction is its effect, or fault entry. -/
theorem exec_next {i : Instr} {s t : State} (h : exec i s = .next t) : Effect i s t ∨ FaultEntry s t := by
  cases i with
  | halt => exact .inl (by simpa [exec, execHalt, Effect, eq_comm] using h)
  | noop => exact .inl (by simpa [exec, execNoop, Effect, eq_comm] using h)
  | unknown op => exact .inl (by simpa [exec, execUnknown, Effect, eq_comm] using h)
  | eq a b c => exact threeOperand_next (by simp) h
  | gt a b c => exact threeOperand_next (by simp) h
  | add a b c => exact threeOperand_next (by simp) h
  | mult a b c => exact threeOperand_next (by simp) h
  | and a b c => exact threeOperand_next (by simp) h
  | or a b c => exact threeOperand_next (by simp) h
  | mod a b c =>
    refine threeOperand_next (fun vb vc k hk => ?_) h
    obtain rfl := Stop.raise.inj (modValue_error hk).2
    exact ⟨nofun, nofun⟩
  | jt a b => simpa only [Effect, isNonzero_eq_true, isNonzero_eq_false] using branchWhen_next h
  | jf a b =>
    simpa only [Effect, Bool.not_eq_true', Bool.not_eq_false', isNonzero_eq_true, isNonzero_eq_false] using
      branchWhen_next h
  | set a b =>
    rw [exec, execSet, conclude_eq_next] at h
    simp only [bind_eq_ok, bind_eq_error, dest_eq_ok, dest_eq_error, resolve_eq_error, pure_eq_ok, pure_ne_error,
      Stop.raise.injEq, and_false, exists_false, or_false] at h
    rcases h with ⟨d, rfl, v, hv, rfl⟩ | ⟨k, ⟨-, rfl⟩ | ⟨d, -, -, rfl⟩, rfl⟩
    · exact .inl ⟨d, v, rfl, hv, rfl⟩
    all_goals exact .inr (faultEntry_raise _ _ nofun nofun)
  | not a b =>
    rw [exec, execNot, conclude_eq_next] at h
    simp only [bind_eq_ok, bind_eq_error, dest_eq_ok, dest_eq_error, resolve_eq_error, pure_eq_ok, pure_ne_error,
      Stop.raise.injEq, and_false, exists_false, or_false] at h
    rcases h with ⟨d, rfl, v, hv, rfl⟩ | ⟨k, ⟨-, rfl⟩ | ⟨d, -, -, rfl⟩, rfl⟩
    · exact .inl ⟨d, v, rfl, hv, rfl⟩
    all_goals exact .inr (faultEntry_raise _ _ nofun nofun)
  | push a =>
    rw [exec, execPush, conclude_eq_next] at h
    simp only [bind_eq_ok, bind_eq_error, resolve_eq_error, State.push_eq_ok, pure_eq_ok, pure_ne_error,
      Stop.raise.injEq, and_false, exists_false, or_false] at h
    rcases h with ⟨v, hv, _, ⟨hr, rfl⟩, rfl⟩ | ⟨k, ⟨-, rfl⟩ | ⟨v, -, h⟩, rfl⟩
    · exact .inl ⟨v, hv, hr, rfl⟩
    · exact .inr (faultEntry_raise _ _ nofun nofun)
    · exact absurd (State.push_eq_error h).1 nofun
  | pop a =>
    rw [exec, execPop, conclude_eq_next] at h
    simp only [bind_eq_ok, bind_eq_error, dest_eq_ok, dest_eq_error, Stop.raise.injEq] at h
    rcases h with ⟨d, rfl, h⟩ | ⟨k, ⟨-, rfl⟩ | ⟨d, -, h⟩, rfl⟩
    · cases ht : s.top with
      | none => simp [ht] at h
      | some v =>
        simp only [ht, pure_eq_ok] at h
        exact .inl ⟨d, v, rfl, ht, h⟩
    · exact .inr (faultEntry_raise _ _ nofun nofun)
    · cases ht : s.top with
      | none =>
        simp only [ht, Except.error.injEq, Stop.raise.injEq] at h
        exact .inr ⟨k, by simp [← h], by simp [← h], rfl⟩
      | some v => simp [ht, pure_ne_error] at h
  | jmp a =>
    rw [exec, execJmp, conclude_eq_next] at h
    simp only [bind_eq_ok, bind_eq_error, resolveTarget_eq_ok, resolveTarget_eq_error, pure_eq_ok, pure_ne_error,
      Stop.raise.injEq, and_false, exists_false, or_false] at h
    rcases h with ⟨_, ⟨v, hv, hle, rfl⟩, rfl⟩ | ⟨k, ⟨-, rfl⟩ | ⟨v, -, -, rfl⟩, rfl⟩
    · exact .inl ⟨v, hv, hle, rfl⟩
    all_goals exact .inr (faultEntry_raise _ _ nofun nofun)
  | call a =>
    rw [exec, execCall, conclude_eq_next] at h
    simp only [bind_eq_ok, bind_eq_error, resolveTarget_eq_ok, resolveTarget_eq_error, State.push_eq_ok, pure_eq_ok,
      pure_ne_error, Stop.raise.injEq, and_false, exists_false, or_false] at h
    rcases h with ⟨_, ⟨v, hv, hle, rfl⟩, _, ⟨hr, rfl⟩, rfl⟩ | ⟨k, (⟨-, rfl⟩ | ⟨v, -, -, rfl⟩) | ⟨_, -, h⟩, rfl⟩
    · exact .inl ⟨v, hv, hle, hr, rfl⟩
    · exact .inr (faultEntry_raise _ _ nofun nofun)
    · exact .inr (faultEntry_raise _ _ nofun nofun)
    · exact absurd (State.push_eq_error h).1 nofun
  | ret =>
    rw [exec, execRet, conclude_eq_next] at h
    cases ht : s.top with
    | none =>
      simp only [ht, pure_eq_ok, pure_ne_error, false_and, exists_false, or_false] at h
      exact .inl (.inl ⟨ht, h⟩)
    | some e =>
      simp only [ht, bind_eq_ok, bind_eq_error, checkTarget_eq_ok, checkTarget_eq_error, pure_eq_ok, pure_ne_error,
        Stop.raise.injEq, and_false, exists_false, or_false] at h
      rcases h with ⟨_, ⟨hle, rfl⟩, rfl⟩ | ⟨k, ⟨-, rfl⟩, rfl⟩
      · exact .inl (.inr ⟨e, ht, hle, rfl⟩)
      · exact .inr (faultEntry_raise _ _ nofun nofun)
  | rmem a b =>
    rw [exec, execRmem, conclude_eq_next] at h
    simp only [bind_eq_ok, bind_eq_error, dest_eq_ok, dest_eq_error, resolve_eq_error, memRead_eq_ok,
      memRead_eq_error, pure_eq_ok, pure_ne_error, Stop.raise.injEq, and_false, exists_false, or_false] at h
    rcases h with ⟨d, rfl, v, hv, _, ⟨hle, rfl⟩, rfl⟩ | ⟨k, ⟨-, rfl⟩ | ⟨d, -, ⟨-, rfl⟩ | ⟨v, -, -, rfl⟩⟩, rfl⟩
    · exact .inl ⟨d, v, rfl, hv, hle, rfl⟩
    all_goals exact .inr (faultEntry_raise _ _ nofun nofun)
  | wmem a b =>
    rw [exec, execWmem, conclude_eq_next] at h
    simp only [bind_eq_ok, bind_eq_error, resolve_eq_error, memWrite_eq_ok, memWrite_eq_error, pure_eq_ok,
      pure_ne_error, Stop.raise.injEq, and_false, exists_false, or_false] at h
    rcases h with ⟨addr, ha, v, hv, _, ⟨hle, rfl⟩, rfl⟩ | ⟨k, ⟨-, rfl⟩ | ⟨addr, -, ⟨-, rfl⟩ | ⟨v, -, -, rfl⟩⟩, rfl⟩
    · exact .inl ⟨addr, v, ha, hv, hle, rfl⟩
    all_goals exact .inr (faultEntry_raise _ _ nofun nofun)
  | out a =>
    rw [exec, execOut, conclude_eq_next] at h
    simp only [bind_eq_ok, bind_eq_error, resolve_eq_error, pure_eq_ok, pure_ne_error, Stop.raise.injEq, and_false,
      exists_false, or_false] at h
    rcases h with ⟨v, hv, rfl⟩ | ⟨k, ⟨-, rfl⟩, rfl⟩
    · exact .inl ⟨v, hv, rfl⟩
    · exact .inr (faultEntry_raise _ _ nofun nofun)
  | inp a =>
    rw [exec, execInp, conclude_eq_next] at h
    simp only [bind_eq_ok, bind_eq_error, dest_eq_ok, dest_eq_error, takeByte_eq_error, pure_eq_ok, pure_ne_error,
      Stop.raise.injEq, and_false, exists_false, or_false, reduceCtorEq, false_and, false_or, Prod.exists] at h
    rcases h with ⟨d, rfl, b, u, hb, rfl⟩ | ⟨k, ⟨-, rfl⟩ | ⟨d, -, -, rfl, -, hf⟩, rfl⟩
    · exact .inl ⟨d, b, u, rfl, hb, rfl⟩
    · exact .inr (faultEntry_raise _ _ nofun nofun)
    · exact .inr (faultEntry_raise _ _ nofun fun _ => hf)

/-- No instruction is refused. -/
theorem exec_ne_refused (i : Instr) (s : State) (r : Refusal) : exec i s ≠ .refused r := by
  cases i <;> simp only [exec, execHalt, execNoop, execUnknown] <;> exact conclude_ne_refused

theorem map_eq_error {α β : Type} {f : α → β} {x : Except Stop α} {e : Stop} :
    f <$> x = .error e ↔ x = .error e := by
  cases x <;> simp [Functor.map, Except.map]

/-- When an instruction has no step: IN without a byte, and PUSH or CALL of operands that pass on a full stack. -/
theorem exec_fault {i : Instr} {s : State} {f : Fault} (h : exec i s = .fault f) :
    (f = .waitingForInput ∧ ∃ d, i = .inp (.register d) ∧ s.input.pending = [] ∧
      (s.input.ended = true → s.cfg.inEof = .block)) ∨
    (f = .stackFull ∧ ∃ a v n, (i = .push a ∨ i = .call a) ∧ resolve a s = .ok v ∧
      s.cfg.stackCapacity = some n ∧ n ≤ s.stack.length) := by
  have full : ∀ {v}, s.push v = .error (.stuck f) →
      f = .stackFull ∧ ∃ n, s.cfg.stackCapacity = some n ∧ n ≤ s.stack.length := by
    intro v hv
    obtain ⟨h1, n, h2, h3⟩ := State.push_eq_error hv
    exact ⟨Stop.stuck.inj h1, n, h2, h3⟩
  cases i <;>
    simp only [exec, execHalt, execSet, execPush, execPop, execEq, execGt, execJmp, execJt, execJf, execAdd, execMult,
      execMod, execAnd, execOr, execNot, execRmem, execWmem, execCall, execRet, execOut, execInp, execNoop,
      execUnknown, threeOperand, branchWhen, conclude_eq_fault, bind_eq_error, dest_eq_error, resolve_eq_error,
      pure_ne_error, reduceCtorEq, and_false, exists_false, or_false, false_or, resolveTarget_eq_error,
      memRead_eq_error, memWrite_eq_error] at h
  case mod => obtain ⟨_, -, vb, -, vc, -, h⟩ := h; cases (modValue_error h).2
  case push a =>
    obtain ⟨v, hv, h⟩ := h
    obtain ⟨hf, n, hn⟩ := full h
    exact .inr ⟨hf, a, v, n, .inl rfl, hv, hn⟩
  case call a =>
    obtain ⟨_, ht, h⟩ := h
    obtain ⟨v, hv, -, -⟩ := resolveTarget_eq_ok.1 ht
    obtain ⟨hf, n, hn⟩ := full h
    exact .inr ⟨hf, a, v, n, .inr rfl, hv, hn⟩
  case pop => obtain ⟨d, -, h⟩ := h; cases ht : s.top <;> simp [ht, pure_ne_error] at h
  case ret => cases ht : s.top <;> simp [ht, pure_ne_error, map_eq_error, checkTarget_eq_error] at h
  case jt => obtain ⟨v, -, h⟩ := h; split at h <;> simp [pure_ne_error, map_eq_error, resolveTarget_eq_error] at h
  case jf => obtain ⟨v, -, h⟩ := h; split at h <;> simp [pure_ne_error, map_eq_error, resolveTarget_eq_error] at h
  case inp =>
    obtain ⟨d, hd, h⟩ := h
    rw [dest_eq_ok] at hd
    obtain ⟨hp, h⟩ := takeByte_eq_error.1 h
    simp only [Stop.stuck.injEq, reduceCtorEq, false_and, or_false] at h
    exact .inl ⟨h.1, d, by rw [hd], hp, h.2⟩

/-- The step is the wait for input exactly when the host sees the core waiting (R55). -/
theorem step_waits_iff {s : State} : step s = .fault .waitingForInput ↔ s.waiting = true := by
  unfold step State.waiting
  cases hf : fetchInstr s with
  | error e =>
    rcases fetchInstr_eq_error.1 hf with ⟨-, rfl⟩ | ⟨-, rfl⟩ | ⟨-, -, rfl⟩ | ⟨-, -, rfl⟩ <;> simp
  | ok i =>
    constructor
    · intro h
      obtain ⟨-, d, rfl, hp, he⟩ | ⟨h, -⟩ := exec_fault h
      · cases hd : s.input.ended <;> simp_all
      · cases h
    · intro h
      split at h
      · next i d hi =>
        obtain rfl := Except.ok.inj hi
        simp only [Bool.and_eq_true, List.isEmpty_iff, Bool.or_eq_true, Bool.not_eq_true', decide_eq_true_eq] at h
        have : s.takeByte = .error (.stuck .waitingForInput) :=
          takeByte_eq_error.2 ⟨h.1, .inl ⟨rfl, fun he => h.2.resolve_left (by simp [he])⟩⟩
        simp [exec, execInp, dest, this]
      · cases h

end Sys2Proof.Machine
end

