-- ==== Sys2Proof/Laws/Memory.lean ====
section
/-! SUPPORT. Memory: a read after a write, the canonical form, and what the initial fill reads as (20_memory.md R72,
R73; 70_reset_and_hazards.md R271). -/

namespace Sys2Proof.Machine

theorem Memory.read_entry (m : Memory) (a c : Nat) (v : Word) (h : m.read a = unlistedCell) :
    (Memory.entry a v m).read c = if c = a then v else m.read c := by
  unfold Memory.entry
  split
  · next hv => by_cases hc : c = a <;> simp_all
  · rfl

/-- Below the first address, a memory reads as unlisted. -/
theorem Memory.read_of_lt (m : Memory) (a : Nat) (h : ∀ c ∈ m, a < c.1) : m.read a = unlistedCell := by
  induction m with
  | nil => rfl
  | cons c m ih =>
    obtain ⟨b, w⟩ := c
    have hb : a ≠ b := Nat.ne_of_lt (h (b, w) (by simp))
    simp [Memory.read, hb, ih (fun c hc => h c (by simp [hc]))]

theorem Memory.wf_tail {c : Nat × Word} {m : Memory} (h : Memory.wf (c :: m)) : Memory.wf m :=
  ⟨(List.pairwise_cons.1 h.1).2, fun d hd => h.2 d (by simp [hd])⟩

/-- A write changes the cell it names and no other (R73). -/
theorem Memory.read_write {m : Memory} (hm : m.Pairwise (fun c d => c.1 < d.1)) (a c : Nat) (v : Word) :
    (m.write a v).read c = if c = a then v else m.read c := by
  induction m with
  | nil => exact Memory.read_entry [] a c v rfl
  | cons e m ih =>
    obtain ⟨b, w⟩ := e
    obtain ⟨hb, hm'⟩ := List.pairwise_cons.1 hm
    unfold Memory.write
    split
    · next hab =>
      refine Memory.read_entry _ a c v (Memory.read_of_lt _ a ?_)
      intro d hd
      rcases List.mem_cons.1 hd with rfl | hd
      · exact hab
      · exact hab.trans (hb d hd)
    · split
      · next hab =>
        subst hab
        rw [Memory.read_entry m a c v (Memory.read_of_lt m a hb)]
        by_cases hc : c = a <;> simp [Memory.read, hc]
      · next h1 h2 =>
        simp only [Memory.read, ih hm']
        by_cases hc : c = b
        · subst hc; simp; intro h; exact absurd h.symm h2
        · simp [hc]

theorem Memory.wf_entry {m : Memory} {a : Nat} {v : Word} (hm : Memory.wf m) (ha : a ≤ 32767)
    (hlt : ∀ c ∈ m, a < c.1) : Memory.wf (Memory.entry a v m) := by
  unfold Memory.entry
  split
  · exact hm
  · next hv =>
    refine ⟨List.pairwise_cons.2 ⟨hlt, hm.1⟩, ?_⟩
    intro c hc
    rcases List.mem_cons.1 hc with rfl | hc
    · exact ⟨ha, hv⟩
    · exact hm.2 c hc

theorem Memory.mem_entry {m : Memory} {a : Nat} {v : Word} {c : Nat × Word} (h : c ∈ Memory.entry a v m) :
    c.1 = a ∨ c ∈ m := by
  unfold Memory.entry at h
  split at h
  · exact .inr h
  · rcases List.mem_cons.1 h with rfl | h
    · exact .inl rfl
    · exact .inr h

theorem Memory.mem_write {m : Memory} {a : Nat} {v : Word} {c : Nat × Word} (h : c ∈ m.write a v) :
    c.1 = a ∨ c ∈ m := by
  induction m with
  | nil => exact Memory.mem_entry h
  | cons e m ih =>
    obtain ⟨b, w⟩ := e
    unfold Memory.write at h
    split at h
    · exact Memory.mem_entry h
    · split at h
      · rcases Memory.mem_entry h with h | h
        · exact .inl h
        · exact .inr (by simp [h])
      · rcases List.mem_cons.1 h with rfl | h
        · exact .inr (by simp)
        · rcases ih h with h | h
          · exact .inl h
          · exact .inr (by simp [h])

/-- Every write keeps the canonical form. -/
theorem Memory.write_keeps_wf {m : Memory} (hm : Memory.wf m) {a : Nat} (ha : a ≤ 32767) (v : Word) :
    Memory.wf (m.write a v) := by
  induction m with
  | nil => exact Memory.wf_entry hm ha (by simp)
  | cons e m ih =>
    obtain ⟨b, w⟩ := e
    obtain ⟨hb, hm'⟩ := List.pairwise_cons.1 hm.1
    unfold Memory.write
    split
    · next hab =>
      refine Memory.wf_entry hm ha ?_
      intro d hd
      rcases List.mem_cons.1 hd with rfl | hd
      · exact hab
      · exact hab.trans (hb d hd)
    · split
      · next hab => exact Memory.wf_entry (Memory.wf_tail hm) ha (by subst hab; exact hb)
      · next h1 h2 =>
        have ih' := ih (Memory.wf_tail hm)
        refine ⟨List.pairwise_cons.2 ⟨?_, ih'.1⟩, ?_⟩
        · intro d hd
          rcases Memory.mem_write hd with h | h
          · simp only [h]; omega
          · exact hb d h
        · intro d hd
          rcases List.mem_cons.1 hd with rfl | hd
          · exact hm.2 _ (by simp)
          · exact ih'.2 d hd

theorem placeWords_keeps_wf (ws : List Word) {m : Memory} (hm : Memory.wf m) (a : Nat) :
    Memory.wf (placeWords m a ws) := by
  induction ws generalizing m a with
  | nil => exact hm
  | cons w ws ih =>
    refine ih ?_ (a + 1)
    split
    · next h => exact Memory.write_keeps_wf hm h w
    · exact hm

theorem Memory.le_of_mem_fill {a : Nat} {ws : List Word} {c : Nat × Word} (h : c ∈ Memory.fill a ws) :
    a ≤ c.1 ∧ c.1 < a + ws.length := by
  induction ws generalizing a with
  | nil => simp [Memory.fill] at h
  | cons w ws ih =>
    rcases Memory.mem_entry h with h | h
    · simp [h]
    · have := ih h; simp; omega

theorem Memory.fill_keeps_wf {a : Nat} {ws : List Word} (h : a + ws.length ≤ 32768) :
    Memory.wf (Memory.fill a ws) := by
  induction ws generalizing a with
  | nil => exact ⟨by simp [Memory.fill], by simp [Memory.fill]⟩
  | cons w ws ih =>
    simp only [List.length_cons] at h
    exact Memory.wf_entry (ih (by omega)) (by omega) fun c hc => (Memory.le_of_mem_fill hc).1

/-- The filled cells read as the image's words, in order. -/
theorem Memory.read_fill (ws : List Word) (a j : Nat) :
    (Memory.fill a ws).read (a + j) = ws[j]?.getD unlistedCell := by
  induction ws generalizing a j with
  | nil => rfl
  | cons w ws ih =>
    rw [Memory.fill, Memory.read_entry _ _ _ _ (Memory.read_of_lt _ _ fun c hc => (Memory.le_of_mem_fill hc).1)]
    cases j with
    | zero => simp
    | succ j =>
      have := ih (a + 1) j
      simp only [Nat.add_right_comm a 1 j, Nat.add_assoc] at this ⊢
      simp [this]

/-- Zero words of an image leave no entry. -/
theorem Memory.fill_zeros_append (a n : Nat) (ws : List Word) :
    Memory.fill a (List.replicate n unlistedCell ++ ws) = Memory.fill (a + n) ws := by
  induction n generalizing a with
  | zero => rfl
  | succ n ih =>
    simp only [List.replicate_succ, List.cons_append, Memory.fill, Memory.entry, ih]
    simp [Nat.add_right_comm a 1 n, Nat.add_assoc]

end Sys2Proof.Machine
end

