-- ==== Sys2Proof/Laws/PerInstr.lean ====
section
/-! SUPPORT. A fact about each instruction as syntax: its operands are as many as R93 gives its opcode word. -/

namespace Sys2Proof.Laws.OperandCount

/-- The operand count k of 30_encoding.md R93. -/
def Statement (i : Instr) : Prop := i.wf = true → i.operands.length = arity i.opcode

theorem halt : Statement .halt := fun _ => rfl
theorem set (a b : Operand) : Statement (.set a b) := fun _ => rfl
theorem push (a : Operand) : Statement (.push a) := fun _ => rfl
theorem pop (a : Operand) : Statement (.pop a) := fun _ => rfl
theorem eq (a b c : Operand) : Statement (.eq a b c) := fun _ => rfl
theorem gt (a b c : Operand) : Statement (.gt a b c) := fun _ => rfl
theorem jmp (a : Operand) : Statement (.jmp a) := fun _ => rfl
theorem jt (a b : Operand) : Statement (.jt a b) := fun _ => rfl
theorem jf (a b : Operand) : Statement (.jf a b) := fun _ => rfl
theorem add (a b c : Operand) : Statement (.add a b c) := fun _ => rfl
theorem mult (a b c : Operand) : Statement (.mult a b c) := fun _ => rfl
theorem mod (a b c : Operand) : Statement (.mod a b c) := fun _ => rfl
theorem and (a b c : Operand) : Statement (.and a b c) := fun _ => rfl
theorem or (a b c : Operand) : Statement (.or a b c) := fun _ => rfl
theorem not (a b : Operand) : Statement (.not a b) := fun _ => rfl
theorem rmem (a b : Operand) : Statement (.rmem a b) := fun _ => rfl
theorem wmem (a b : Operand) : Statement (.wmem a b) := fun _ => rfl
theorem call (a : Operand) : Statement (.call a) := fun _ => rfl
theorem ret : Statement .ret := fun _ => rfl
theorem out (a : Operand) : Statement (.out a) := fun _ => rfl
theorem inp (a : Operand) : Statement (.inp a) := fun _ => rfl
theorem noop : Statement .noop := fun _ => rfl

theorem unknown (op : Word) : Statement (.unknown op) := by
  intro h
  have h22 : 22 ≤ op.toNat := by simpa [Instr.wf, Instr.opcodeWf, Instr.operands] using h
  simp only [Instr.operands, Instr.opcode, List.length_nil, arity]
  split <;> first | rfl | omega

end Sys2Proof.Laws.OperandCount
end

