-- ==== Sys2Proof/Tests/Slice0.lean ====
section
/-! SUPPORT. Tests. Expected results are those of 95_test_vectors.md (V, P and E numbers) or the words of R93 and R95
written out; then, for each statement with hypotheses, a witness that meets them, at the boundary of each clause. -/

namespace Sys2Proof.Machine

/-! ### Helpers -/

/-- The state of a next outcome. -/
def nextState? : Result → Option State
  | .next t => some t
  | .fault _ => none
  | .refused _ => none

/-- The reason of a step that does not exist. -/
def stuck? : Result → Option Fault
  | .next _ => none
  | .fault f => some f
  | .refused _ => none

/-- A run of the given image under the reference parameters, before its first step. -/
def start (ws : List Word) : State := State.load Config.reference ws

/-- Eight registers. -/
def regs (a b c d e f g h : Word) : Vector Word 8 := #v[a, b, c, d, e, f, g, h]

/-- The step from `s` is fault entry of the given kind. -/
abbrev Fails (s : State) (k : FaultKind) : Prop :=
  nextState? (step s) = some { s with run := .failed, fault := some { kind := k, cursor := s.pc } }

/-! ### Well-formedness -/

theorem test_wf_refuses_invalid_operand_below_32776 : (Instr.out (.invalid 32775)).wf = false := by decide
theorem test_wf_refuses_invalid_last_operand : (Instr.add (.register 0) (.literal 1) (.invalid 5)).wf = false := by decide
theorem test_wf_refuses_unknown_below_22 : (Instr.unknown 21).wf = false := by decide
theorem test_wf_admits_the_boundaries :
    (Instr.out (.invalid 32776)).wf = true ∧ (Instr.unknown 22).wf = true ∧ (Instr.unknown 65535).wf = true := by decide

/-! ### Decoding, each constructor from its words (R93, R95) -/

theorem test_decode_halt : decode [0, 7] = .ok (.halt, [7]) := by decide
theorem test_decode_set : decode [1, 32768, 32775, 7] = .ok (.set (.register 0) (.register 7), [7]) := by decide
theorem test_decode_push : decode [2, 32767, 7] = .ok (.push (.literal 32767), [7]) := by decide
theorem test_decode_pop : decode [3, 32769, 7] = .ok (.pop (.register 1), [7]) := by decide
theorem test_decode_eq : decode [4, 32770, 1, 2, 7] = .ok (.eq (.register 2) (.literal 1) (.literal 2), [7]) := by decide
theorem test_decode_gt : decode [5, 32771, 1, 2, 7] = .ok (.gt (.register 3) (.literal 1) (.literal 2), [7]) := by decide
theorem test_decode_jmp : decode [6, 32772, 7] = .ok (.jmp (.register 4), [7]) := by decide
theorem test_decode_jt : decode [7, 32773, 9, 7] = .ok (.jt (.register 5) (.literal 9), [7]) := by decide
theorem test_decode_jf : decode [8, 32774, 9, 7] = .ok (.jf (.register 6) (.literal 9), [7]) := by decide
theorem test_decode_add : decode [9, 32768, 5, 6, 7] = .ok (.add (.register 0) (.literal 5) (.literal 6), [7]) := by decide
theorem test_decode_mult : decode [10, 32768, 5, 6, 7] = .ok (.mult (.register 0) (.literal 5) (.literal 6), [7]) := by decide
theorem test_decode_mod : decode [11, 32768, 5, 6, 7] = .ok (.mod (.register 0) (.literal 5) (.literal 6), [7]) := by decide
theorem test_decode_and : decode [12, 32768, 5, 6, 7] = .ok (.and (.register 0) (.literal 5) (.literal 6), [7]) := by decide
theorem test_decode_or : decode [13, 32768, 5, 6, 7] = .ok (.or (.register 0) (.literal 5) (.literal 6), [7]) := by decide
theorem test_decode_not : decode [14, 32768, 5, 7] = .ok (.not (.register 0) (.literal 5), [7]) := by decide
theorem test_decode_rmem : decode [15, 32768, 32776, 7] = .ok (.rmem (.register 0) (.invalid 32776), [7]) := by decide
theorem test_decode_wmem : decode [16, 100, 32768, 7] = .ok (.wmem (.literal 100) (.register 0), [7]) := by decide
theorem test_decode_call : decode [17, 40, 7] = .ok (.call (.literal 40), [7]) := by decide
theorem test_decode_ret : decode [18, 7] = .ok (.ret, [7]) := by decide
theorem test_decode_out : decode [19, 33, 7] = .ok (.out (.literal 33), [7]) := by decide
theorem test_decode_in : decode [20, 32768, 7] = .ok (.inp (.register 0), [7]) := by decide
theorem test_decode_noop : decode [21, 7] = .ok (.noop, [7]) := by decide
theorem test_decode_unknown :
    decode [22, 7] = .ok (.unknown 22, [7]) ∧ decode [32768, 7] = .ok (.unknown 32768, [7]) ∧
    decode [65535, 7] = .ok (.unknown 65535, [7]) := by decide
theorem test_decode_refuses_short_words :
    decode [] = .error .noOpcodeWord ∧ decode [9, 32768, 5] = .error .missingOperandWord := by decide

/-- R110: 0x0009 0x8000 0x0005 0x0006, the first word in bits 15 to 0. -/
theorem test_table_word_add :
    decodeTableWord 64 0x0006000580000009 = some (.add (.register 0) (.literal 5) (.literal 6)) := by decide
theorem test_table_word_has_zeros_above_its_bits :
    decodeTableWord 16 0x8000000C = some (.and (.literal 0) (.literal 0) (.literal 0)) := by decide
theorem test_fetch_word_runs :
    nextState? (step (State.reset.withFetchWord 64 0x0006000580000009)) =
      some { State.reset with mem := [(0, 9), (1, 32768), (2, 5), (3, 6)], x := regs 11 0 0 0 0 0 0 0, pc := 4 } := by
  decide

/-! ### One step of each instruction -/

/-- V10. -/
theorem test_halt_reads_no_further_word :
    nextState? (step (start [0, 65535])) = some { start [0, 65535] with run := .halted } := by decide
/-- V9. -/
theorem test_empty_image_halts : nextState? (step State.reset) = some { State.reset with run := .halted } := by decide
/-- V1. -/
theorem test_set_from_register :
    nextState? (exec (.set (.register 3) (.register 7)) { start [] with x := regs 0 0 0 0 0 0 0 9 }) =
      some { start [] with x := regs 0 0 0 9 0 0 0 9, pc := 3 } := by decide
/-- V5. -/
theorem test_set_checks_its_destination_first : Fails (start [1, 7, 32776]) .invalidDestination := by decide
/-- V13. -/
theorem test_push_register :
    nextState? (exec (.push (.register 2)) { start [] with x := regs 0 0 77 0 0 0 0 0, stack := [4] }) =
      some { start [] with x := regs 0 0 77 0 0 0 0 0, stack := [4, 77], pc := 2 } := by decide
/-- V14. -/
theorem test_push_invalid : Fails (start [2, 32776]) .invalidOperand := by decide
/-- V15. -/
theorem test_pop_takes_the_last_entry :
    nextState? (exec (.pop (.register 0)) { start [] with stack := [1, 2] }) =
      some { start [] with x := regs 2 0 0 0 0 0 0 0, stack := [1], pc := 2 } := by decide
/-- V16. -/
theorem test_pop_checks_its_destination_first : Fails (start [3, 7]) .invalidDestination := by decide
/-- V21. -/
theorem test_eq_source_is_destination :
    (nextState? (step (start [4, 32768, 32768, 32768]))).map State.x = some (regs 1 0 0 0 0 0 0 0) := by decide
/-- V24. -/
theorem test_gt_is_unsigned :
    (nextState? (step (start [5, 32768, 0, 32767]))).map State.x = some (regs 0 0 0 0 0 0 0 0) := by decide
/-- V27. -/
theorem test_gt_compares_sixteen_bits :
    (nextState? (exec (.gt (.register 0) (.register 1) (.literal 1)) { start [] with x := regs 0 65535 0 0 0 0 0 0 })).map
      State.x = some (regs 1 65535 0 0 0 0 0 0) := by decide
/-- V28. -/
theorem test_jmp_through_register :
    (nextState? (exec (.jmp (.register 2)) { start [] with x := regs 0 0 40 0 0 0 0 0 })).map State.pc = some 40 := by
  decide
/-- V30. -/
theorem test_jmp_wide_target :
    Fails { start [6, 32768] with x := regs 65535 0 0 0 0 0 0 0 } .invalidAddress := by decide
/-- V31. -/
theorem test_jt_taken :
    (nextState? (exec (.jt (.register 0) (.literal 9)) { start [] with x := regs 4 0 0 0 0 0 0 0 })).map State.pc =
      some 9 := by decide
/-- V33. -/
theorem test_jt_does_not_resolve_an_unused_target :
    (nextState? (step (start [7, 0, 32776]))).map State.pc = some 3 := by decide
/-- V34. -/
theorem test_jf_does_not_resolve_an_unused_target :
    (nextState? (step (start [8, 1, 32776]))).map State.pc = some 3 := by decide
/-- V35. -/
theorem test_jf_resolves_a_used_target : Fails (start [8, 0, 32776]) .invalidOperand := by decide
/-- V45. -/
theorem test_add_wraps :
    (nextState? (step (start [9, 32768, 32767, 32767]))).map State.x = some (regs 32766 0 0 0 0 0 0 0) := by decide
/-- V56. -/
theorem test_add_source_is_destination :
    (nextState? (exec (.add (.register 0) (.register 0) (.literal 32767)) { start [] with x := regs 3 0 0 0 0 0 0 0 })).map
      State.x = some (regs 2 0 0 0 0 0 0 0) := by decide
/-- V47. -/
theorem test_mult_wraps :
    (nextState? (step (start [10, 32768, 32767, 32767]))).map State.x = some (regs 1 0 0 0 0 0 0 0) := by decide
/-- V48. -/
theorem test_mult_keeps_the_low_bits :
    (nextState? (step (start [10, 32768, 200, 200]))).map State.x = some (regs 7232 0 0 0 0 0 0 0) := by decide
/-- V51. -/
theorem test_mod_operand_order :
    (nextState? (step (start [11, 32768, 3, 10]))).map State.x = some (regs 3 0 0 0 0 0 0 0) := by decide
/-- V53. -/
theorem test_mod_by_zero : Fails (start [11, 32768, 7, 0]) .arithmeticFault := by decide
/-- V57. -/
theorem test_and :
    (nextState? (step (start [12, 32768, 32767, 4660]))).map State.x = some (regs 4660 0 0 0 0 0 0 0) := by decide
/-- V58. -/
theorem test_or :
    (nextState? (step (start [13, 32768, 16384, 1]))).map State.x = some (regs 16385 0 0 0 0 0 0 0) := by decide
/-- V60. -/
theorem test_not :
    (nextState? (step (start [14, 32768, 21845]))).map State.x = some (regs 10922 0 0 0 0 0 0 0) := by decide
/-- V62. -/
theorem test_not_of_a_wide_value :
    (nextState? (exec (.not (.register 0) (.register 1)) { start [] with x := regs 9 65535 0 0 0 0 0 0 })).map State.x =
      some (regs 0 65535 0 0 0 0 0 0) := by decide
/-- V64, both values of RMEM_WIDE. -/
theorem test_rmem_of_a_wide_cell :
    (nextState? (exec (.rmem (.register 0) (.literal 100)) { start [] with mem := [(100, 65535)] })).map State.x =
      some (regs 65535 0 0 0 0 0 0 0) ∧
    (nextState? (exec (.rmem (.register 0) (.literal 100))
      { start [] with mem := [(100, 65535)], cfg := { Config.reference with rmemWide := .mask15 } })).map State.x =
      some (regs 32767 0 0 0 0 0 0 0) := by decide
/-- V65. -/
theorem test_rmem_wide_address :
    Fails { start [15, 32768, 32769] with x := regs 0 65535 0 0 0 0 0 0 } .invalidAddress := by decide
/-- V67. -/
theorem test_wmem_through_registers :
    (nextState? (exec (.wmem (.register 1) (.register 2)) { start [] with x := regs 0 200 5 0 0 0 0 0 })).map State.mem =
      some [(200, 5)] := by decide
/-- V69. -/
theorem test_wmem_over_its_own_words :
    nextState? (step (start [16, 1, 7])) = some { start [16, 7, 7] with pc := 3 } := by decide
/-- V38. -/
theorem test_call_pushes_pc_plus_two :
    nextState? (exec (.call (.register 5)) { start [] with x := regs 0 0 0 0 0 40 0 0, pc := 10 }) =
      some { start [] with x := regs 0 0 0 0 0 40 0 0, pc := 40, stack := [12] } := by decide
/-- V39. -/
theorem test_call_invalid : Fails (start [17, 32776]) .invalidOperand := by decide
/-- V40. -/
theorem test_ret :
    nextState? (exec .ret { start [] with stack := [7, 30] }) = some { start [] with stack := [7], pc := 30 } := by
  decide
/-- V42. -/
theorem test_ret_checks_before_it_pops : Fails { start [18] with stack := [32768] } .invalidAddress := by decide
/-- V72. -/
theorem test_out_emits_the_low_byte :
    nextState? (step (start [19, 300])) = some { start [19, 300] with outlog := [44], pc := 2 } := by decide
/-- V75. -/
theorem test_in_takes_one_byte :
    nextState? (step ((start [20, 32768]).supply 65)) =
      some { start [20, 32768] with x := regs 65 0 0 0 0 0 0 0, pc := 2 } := by decide
/-- V78. -/
theorem test_in_checks_its_destination_first : Fails ((start [20, 5]).supply 65) .invalidDestination := by decide
/-- R132, R40: NOOP at the last cell. -/
theorem test_noop_at_the_last_cell :
    (nextState? (step { start [] with mem := [(32767, 21)], pc := 32767 })).map State.pc = some 32768 := by decide
/-- V6. -/
theorem test_unknown_is_one_word :
    nextState? (step (start [22, 32768, 65535, 0])) = some { start [22, 32768, 65535, 0] with pc := 1 } := by decide
/-- V7. -/
theorem test_operand_word_beyond_memory :
    Fails { start [] with mem := [(32766, 9), (32767, 32768)], pc := 32766 } .invalidAddress := by decide

/-! ### The host's side -/

/-- E10: the image bytes, low byte first. -/
theorem test_image_bytes :
    imageOfBytes [0x09, 0x00, 0x00, 0x80, 0x05, 0x00, 0x06, 0x00, 0x13, 0x00, 0x00, 0x80, 0x00, 0x00] =
      some [9, 32768, 5, 6, 19, 32768, 0] := by decide
/-- R110, E10. -/
theorem test_assemble_add_out_halt :
    assemble "ADD R0,5,6; OUT R0; HALT".toList = some [9, 32768, 5, 6, 19, 32768, 0] := by decide +kernel
/-- E12: a label before its statement, a character operand. -/
theorem test_assemble_label :
    assemble "SET R0, 4; JT R0, target; target: OUT '!' # done".toList =
      some [1, 32768, 4, 7, 32768, 6, 19, 33] := by decide +kernel

/-- R108: one item a line, decimal numbers, `.word` for what no mnemonic can spell. -/
theorem test_program_text :
    itemsText (disassemble (.add (.register 0) (.literal 5) (.literal 32767))) = "ADD R0,5,32767\n".toList ∧
    itemsText (disassemble (.out (.invalid 32776))) = ".word 19\n.word 32776\n".toList := by decide +kernel

/-! ### Witnesses -/

/-- Registers at the boundaries of the operand and address ranges, a stack with a wide top, WMEM in memory. -/
def edge : State :=
  { State.reset with
    mem   := [(9, 16), (10, 9), (11, 19), (32767, 65535)]
    x     := regs 32768 65535 0 1 40 12 7 32767
    stack := [5, 32768]
    pc    := 9 }

/-- The same under Mask15, with a top that fits an address. -/
def narrowEdge : State :=
  { edge with
    x     := regs 32768 0 0 1 40 12 7 32767
    stack := [5, 32767]
    cfg   := { rmemWide := .mask15, inEof := .fail, stackCapacity := some 3 } }

/-- The given words from an address on, with pc there, and nothing else. -/
def standingAt (pc : Nat) (ws : List Word) : State :=
  { State.reset with mem := Memory.fill pc ws, pc := pc }

theorem witness_DecodeOfEncodeIsTheInstruction :
    (Instr.add (.register 7) (.literal 32767) (.invalid 32776)).wf = true ∧ (Instr.unknown 22).wf = true := by decide

theorem witness_EncodeOfDecodeIsTheWords :
    decode [9, 32775, 32767, 32776, 1] = .ok (.add (.register 7) (.literal 32767) (.invalid 32776), [1]) := by decide

theorem witness_LengthComesFromTheOpcodeWordAlone :
    decode [11, 65535, 65535, 65535, 4] = .ok (.mod (.invalid 65535) (.invalid 65535) (.invalid 65535), [4]) ∧
    arity 11 = 3 ∧ arity 21 = 0 ∧ arity 22 = 0 := by decide

theorem witness_ValueWordsResolveByTheirClass :
    ((32767 : Word).toNat ≤ 32767 ∧ resolve (operandOf 32767) edge = .ok 32767) ∧
    ((32768 : Word).toNat = 32768 + (0 : RegIndex).val ∧ resolve (operandOf 32768) edge = .ok 32768) ∧
    ((32775 : Word).toNat = 32768 + (7 : RegIndex).val ∧ resolve (operandOf 32775) edge = .ok 32767) ∧
    (32776 ≤ (32776 : Word).toNat ∧ resolve (operandOf 32776) edge = .error (.raise .invalidOperand)) := by decide

theorem witness_OnlyRegisterWordsAreDestinations :
    ((32768 : Word).toNat = 32768 + (0 : RegIndex).val ∧ dest (operandOf 32768) = .ok 0) ∧
    ((32775 : Word).toNat = 32768 + (7 : RegIndex).val ∧ dest (operandOf 32775) = .ok 7) ∧
    ((32767 : Word).toNat < 32768 ∧ dest (operandOf 32767) = .error (.raise .invalidDestination)) ∧
    (32776 ≤ (32776 : Word).toNat ∧ dest (operandOf 32776) = .error (.raise .invalidDestination)) := by decide

theorem witness_StepRunsTheInstructionAtPc :
    (standingAt 32764 [9, 32768, 5, 6]).run = .running ∧
    (Instr.add (.register 0) (.literal 5) (.literal 6)).wf = true ∧
    InstrAtPc (standingAt 32764 [9, 32768, 5, 6]) (.add (.register 0) (.literal 5) (.literal 6)) := by
  unfold InstrAtPc; decide

theorem witness_FetchBeyondMemoryRaisesInvalidAddress :
    ((standingAt 32768 []).run = .running ∧ 32767 < (standingAt 32768 []).pc) ∧
    ((standingAt 32765 [9, 32768, 5]).run = .running ∧
      32767 < 32765 + arity ((standingAt 32765 [9, 32768, 5]).mem.read 32765)) := by decide

theorem witness_HaltedAndFailedAreTerminal :
    edge.halt.run = .halted ∧ (edge.raise .invalidAddress 9).run = .failed ∧
    hostMove (.supply 65) edge.halt = some (edge.halt.supply 65) ∧
    hostMove .endInput (edge.raise .invalidAddress 9) = some (edge.raise .invalidAddress 9).endInput ∧
    edge.halt.run ≠ .running := by decide

theorem witness_FaultsArePrecise :
    ∃ t, step { edge with mem := [(9, 18)] } = .next t ∧ t.run = .failed := ⟨_, rfl, rfl⟩

theorem witness_CleanEndComesFromHaltOrEmptyRet :
    (∃ t, step { edge with mem := [] } = .next t ∧ t.run = .halted) ∧
    (∃ t, step { edge with mem := [(9, 18)], stack := [] } = .next t ∧ t.run = .halted) :=
  ⟨⟨_, rfl, rfl⟩, ⟨_, rfl, rfl⟩⟩

theorem witness_OnlyInWaitsAndOnlyWithoutAByte :
    stuck? (step (standingAt 32766 [20, 32775])) = some .waitingForInput ∧
    edge.run = .running ∧ edge.cfg.stackCapacity = none ∧ stuck? (step edge) = none := by decide

theorem witness_HaltEndsTheRunAndChangesNothingElse :
    (standingAt 32767 []).run = .running ∧ (standingAt 32767 []).pc ≤ 32767 ∧
    (standingAt 32767 []).mem.read 32767 = 0 := by decide

theorem witness_NoopAdvancesPcOnly :
    (standingAt 32767 [21]).run = .running ∧ (standingAt 32767 [21]).pc = 32767 ∧
    (standingAt 32767 [21]).mem.read 32767 = 21 := by decide

theorem witness_UnknownOpcodeIsAOneWordNoOp :
    22 ≤ (22 : Word).toNat ∧ 22 ≤ (65535 : Word).toNat ∧
    (standingAt 32767 [32768]).run = .running ∧ (standingAt 32767 [32768]).mem.read 32767 = 32768 := by decide

/-- A literal and an invalid word as what a destination may not be. -/
theorem witness_no_destination :
    (∀ d, Operand.literal 32767 ≠ .register d) ∧ (∀ d, Operand.invalid 32776 ≠ .register d) := by decide

/-- The values that value operands of `edge` take: a literal, the word 32768 and the word 65535 in registers, 0. -/
theorem witness_resolved_values :
    resolve (.literal 32767) edge = .ok 32767 ∧ resolve (.register 0) edge = .ok 32768 ∧
    resolve (.register 1) edge = .ok 65535 ∧ resolve (.register 2) edge = .ok 0 := by decide

theorem witness_SetWritesTheResolvedValue :
    resolve (.register 1) edge = .ok 65535 ∧ ∀ d, Operand.literal 32767 ≠ .register d := by decide

theorem witness_PushAppendsTheResolvedValue :
    resolve (.register 0) narrowEdge = .ok 32768 ∧
    (∀ n, narrowEdge.cfg.stackCapacity = some n → narrowEdge.stack.length < n) := by
  refine ⟨by decide, ?_⟩
  intro n h
  obtain rfl : 3 = n := by simpa [narrowEdge] using h
  decide

theorem witness_PopMovesTheTopIntoARegister :
    edge.stack = [5] ++ [32768] ∧ State.reset.stack = [] ∧ ∀ d, Operand.invalid 32776 ≠ .register d := by decide

theorem witness_FullStackLeavesNoStep :
    { narrowEdge with stack := [1, 2, 3] }.cfg.stackCapacity = some 3 ∧
    3 ≤ { narrowEdge with stack := [1, 2, 3] }.stack.length ∧
    resolve (.register 7) { narrowEdge with stack := [1, 2, 3] } = .ok 32767 ∧ (32767 : Word).toNat ≤ 32767 := by
  decide

theorem witness_EqWritesOneExactlyOnEquality :
    (resolve (.register 0) edge = .ok 32768 ∧ resolve (.register 0) edge = .ok 32768) ∧
    (resolve (.register 1) edge = .ok 65535 ∧ resolve (.literal 32767) edge = .ok 32767) := by decide

theorem witness_GtWritesOneExactlyWhenGreater :
    (resolve (.register 0) edge = .ok 32768 ∧ resolve (.literal 32767) edge = .ok 32767) ∧
    (resolve (.literal 5) edge = .ok 5 ∧ resolve (.literal 5) edge = .ok 5) := by decide

theorem witness_JmpSetsPcToTheTarget :
    (resolve (.literal 32767) edge = .ok 32767 ∧ (32767 : Word).toNat ≤ 32767) ∧
    (resolve (.register 0) edge = .ok 32768 ∧ 32767 < (32768 : Word).toNat) := by decide

theorem witness_JtBranchesOnNonzero :
    (resolve (.register 0) edge = .ok 32768 ∧ (32768 : Word) ≠ 0 ∧ resolve (.register 7) edge = .ok 32767) ∧
    resolve (.register 2) edge = .ok 0 ∧
    (resolve (.literal 1) edge = .ok 1 ∧ (1 : Word) ≠ 0 ∧ resolve (.register 0) edge = .ok 32768 ∧
      32767 < (32768 : Word).toNat) := by decide

theorem witness_JfBranchesOnExactlyZero :
    (resolve (.register 2) edge = .ok 0 ∧ resolve (.literal 32767) edge = .ok 32767 ∧ (32767 : Word).toNat ≤ 32767) ∧
    (resolve (.register 0) edge = .ok 32768 ∧ (32768 : Word) ≠ 0) ∧
    (resolve (.literal 0) edge = .ok 0 ∧ resolve (.register 0) edge = .ok 32768 ∧ 32767 < (32768 : Word).toNat) := by
  decide

theorem witness_CallPushesTheReturnAddressAndJumps :
    (resolve (.literal 32767) { edge with pc := 32766 } = .ok 32767 ∧ { edge with pc := 32766 }.pc ≤ 32766 ∧
      edge.cfg.stackCapacity = none) ∧
    (resolve (.register 0) edge = .ok 32768 ∧ 32767 < (32768 : Word).toNat) := by decide

theorem witness_RetPopsTheTargetOrHalts :
    State.reset.stack = [] ∧ (narrowEdge.stack = [5] ++ [32767] ∧ (32767 : Word).toNat ≤ 32767) ∧
    (edge.stack = [5] ++ [32768] ∧ 32767 < (32768 : Word).toNat) := by decide

theorem witness_AddWritesTheSumModulo32768 :
    (resolve (.register 1) edge = .ok 65535 ∧ resolve (.register 1) edge = .ok 65535) ∧
    resolve (.literal 32767) edge = .ok 32767 := by decide

theorem witness_MultWritesTheProductModulo32768 :
    resolve (.register 1) edge = .ok 65535 ∧ resolve (.register 0) edge = .ok 32768 := by decide

theorem witness_ModWritesTheRemainderOrFaults :
    (resolve (.register 0) edge = .ok 32768 ∧ resolve (.register 1) edge = .ok 65535 ∧ (65535 : Word) ≠ 0) ∧
    (resolve (.literal 7) edge = .ok 7 ∧ resolve (.register 2) edge = .ok 0) := by decide

/-- For AND, OR, NOT and BitwiseResultsBitByBit. -/
theorem witness_BitwiseResultsBitByBit :
    resolve (.register 0) edge = .ok 32768 ∧ resolve (.register 7) edge = .ok 32767 := by decide

theorem witness_RmemCopiesTheCellIntoTheRegister :
    (resolve (.literal 32767) edge = .ok 32767 ∧ (32767 : Word).toNat ≤ 32767 ∧ edge.cfg.rmemWide = .storeRaw) ∧
    (resolve (.register 7) narrowEdge = .ok 32767 ∧ narrowEdge.cfg.rmemWide = .mask15) ∧
    (resolve (.register 0) edge = .ok 32768 ∧ 32767 < (32768 : Word).toNat) := by decide

theorem witness_WmemStoresTheValueInOneCell :
    (Memory.wf edge.mem ∧ resolve (.literal 32767) edge = .ok 32767 ∧ resolve (.register 2) edge = .ok 0) ∧
    (resolve (.register 0) edge = .ok 32768 ∧ resolve (.register 3) edge = .ok 1 ∧ 32767 < (32768 : Word).toNat) := by
  decide

/-- WMEM 12, 21 at 9 stores the next instruction; WMEM 9, 19 at 9 its own opcode word. -/
theorem witness_NextFetchSeesTheStoredWord :
    (Memory.wf (standingAt 9 [16, 12, 21]).mem ∧ InstrAtPc (standingAt 9 [16, 12, 21]) (.wmem (.literal 12) (.literal 21)) ∧
      resolve (.literal 12) (standingAt 9 [16, 12, 21]) = .ok 12 ∧ encode .noop = [21] ∧ 12 = 9 + 3) ∧
    (Memory.wf edge.mem ∧ edge.run = .running ∧ InstrAtPc edge (.wmem (.literal 9) (.literal 19)) ∧
      (Instr.wmem (.literal 9) (.literal 19)).wf = true) := by
  unfold InstrAtPc; decide

theorem witness_CanonicalMemoriesAreDeterminedByTheirReads :
    Memory.wf edge.mem ∧ Memory.wf ([] : Memory) ∧ Memory.wf ([(0, 1), (32767, 65535)] : Memory) := by decide

theorem witness_OutEmitsTheLowByte : resolve (.register 1) edge = .ok 65535 := by decide

theorem witness_InTakesExactlyOneByte :
    (edge.supply 255).input.pending = 255 :: [] ∧ (edge.input.pending = [] ∧ edge.input.ended = false) ∧
    ∀ d, Operand.literal 5 ≠ .register d := by decide

theorem witness_EndOfInputFollowsInEof :
    (edge.endInput.input.pending = [] ∧ edge.endInput.input.ended = true ∧ edge.endInput.cfg.inEof = .block ∧
      hostMove (.supply 255) edge.endInput = some edge.endInput) ∧
    { edge.endInput with cfg := { edge.cfg with inEof := .sentinel 255 } }.cfg.inEof = .sentinel 255 ∧
    (narrowEdge.endInput.input.pending = [] ∧ narrowEdge.endInput.input.ended = true ∧
      narrowEdge.endInput.cfg.inEof = .fail) := by decide

theorem witness_ArrivingBytesDoNotDisturbAStep :
    (edge.input.ended = false ∧ ∃ t, step edge = .next t) ∧
    ((standingAt 32766 [20, 32775]).input.ended = false ∧
      step (standingAt 32766 [20, 32775]) = .fault .waitingForInput) := ⟨⟨rfl, _, rfl⟩, rfl, rfl⟩

theorem witness_InvalidDestinationExactlyForNonRegisterDestinations :
    edge.fault = none ∧ Raises (.inp (.literal 32767)) edge .invalidDestination := ⟨rfl, rfl⟩

theorem witness_InvalidOperandExactlyForInvalidValueWords :
    edge.fault = none ∧ Raises (.wmem (.register 0) (.invalid 32776)) edge .invalidOperand ∧
    Raises (.jt (.register 0) (.invalid 32776)) edge .invalidOperand ∧
    Raises (.jf (.register 2) (.invalid 65535)) edge .invalidOperand := ⟨rfl, rfl, rfl, rfl⟩

theorem witness_UnderflowDivisorAndEndOfInputFaults :
    State.reset.fault = none ∧ Raises (.pop (.register 7)) State.reset .stackUnderflow ∧
    Raises (.mod (.register 0) (.literal 7) (.register 2)) edge .arithmeticFault ∧
    Raises (.inp (.register 0)) narrowEdge.endInput .inputExhausted := ⟨rfl, rfl, rfl, rfl⟩

theorem witness_InvalidAddressExactlyForWideAddresses :
    edge.fault = none ∧ Raises (.rmem (.register 1) (.register 0)) edge .invalidAddress ∧
    Raises (.wmem (.register 0) (.literal 1)) edge .invalidAddress ∧ Raises (.call (.register 0)) edge .invalidAddress ∧
    Raises (.jt (.literal 1) (.register 0)) edge .invalidAddress ∧
    Raises (.jf (.literal 0) (.register 0)) edge .invalidAddress ∧ Raises .ret edge .invalidAddress :=
  ⟨rfl, rfl, rfl, rfl, rfl, rfl, rfl⟩

theorem witness_OnlyTheDestinationRegisterChanges :
    (∃ t, exec (.add (.register 0) (.register 1) (.register 7)) edge = .next t) ∧
    destinationOperand (.add (.register 0) (.register 1) (.register 7)) ≠ some (.register 7) := ⟨⟨_, rfl⟩, by decide⟩

theorem witness_OnlyTheStoredCellChanges :
    Memory.wf edge.mem ∧ (∃ t, exec (.wmem (.register 7) (.register 2)) edge = .next t) ∧
    storeAddress (.wmem (.register 7) (.register 2)) edge = some 32767 ∧
    (∃ t, exec (.out (.register 1)) edge = .next t) ∧ storeAddress (.out (.register 1)) edge = none :=
  ⟨by decide, ⟨_, rfl⟩, by decide, ⟨_, rfl⟩, by decide⟩

theorem witness_OnlyFourInstructionsChangeTheStack :
    (∃ t, exec (.call (.literal 32767)) edge = .next t) ∧ (∃ t, exec (.pop (.register 0)) edge = .next t) :=
  ⟨⟨_, rfl⟩, ⟨_, rfl⟩⟩

theorem witness_ChannelsChangeOnlyAtOutAndIn :
    (∃ t, exec (.out (.register 1)) edge = .next t) ∧ (∃ t, exec (.inp (.register 1)) (edge.supply 255) = .next t) :=
  ⟨⟨_, rfl⟩, ⟨_, rfl⟩⟩

theorem witness_PcAdvancesByTheInstructionsWords :
    edge.run = .running ∧ (∃ t, exec (.out (.register 1)) edge = .next t ∧ t.run = .running) ∧
    transfersControl (.out (.register 1)) = false := ⟨rfl, ⟨_, rfl, rfl⟩, rfl⟩

theorem witness_StoredValuesAreInTheirRanges :
    edge.run = .running ∧
    (∃ t, exec (.or (.register 0) (.register 1) (.register 7)) edge = .next t ∧ t.run = .running) ∧
    (∃ t, exec (.eq (.register 0) (.register 1) (.register 7)) edge = .next t ∧ t.run = .running) ∧
    (∃ t, exec (.set (.register 2) (.register 1)) edge = .next t ∧ t.run = .running) ∧
    (∃ t, exec (.pop (.register 2)) edge = .next t ∧ t.run = .running) ∧
    (∃ t, exec (.inp (.register 2)) (edge.supply 255) = .next t ∧ t.run = .running) ∧
    (∃ t, exec (.rmem (.register 2) (.literal 32767)) edge = .next t ∧ t.run = .running) ∧
    (∃ t, exec (.rmem (.register 2) (.register 7)) narrowEdge = .next t ∧ t.run = .running) :=
  ⟨rfl, ⟨_, rfl, rfl⟩, ⟨_, rfl, rfl⟩, ⟨_, rfl, rfl⟩, ⟨_, rfl, rfl⟩, ⟨_, rfl, rfl⟩, ⟨_, rfl, rfl⟩, ⟨_, rfl, rfl⟩⟩

theorem witness_LoadAndHostEventsKeepTheInvariant :
    edge.Inv ∧ hostMove (.supply 0) edge = some (edge.supply 0) ∧ hostMove .endInput edge = some edge.endInput :=
  ⟨⟨by decide, by decide, by simp [edge, State.reset, Config.reference], by decide, by simp [edge, State.reset]⟩,
    rfl, rfl⟩

theorem witness_StepKeepsTheInvariant : narrowEdge.Inv ∧ ∃ t, step narrowEdge = .next t :=
  ⟨⟨by decide, by decide, by simp [narrowEdge], by decide, by simp [narrowEdge, edge, State.reset]⟩, _, rfl⟩

/-- A NOOP at 32766 under Mask15, with 32767 in a register and on the stack. -/
def narrowLast : State :=
  { standingAt 32766 [21] with x := regs 32767 0 0 0 0 0 0 0, stack := [32767], cfg := narrowEdge.cfg }

theorem witness_Mask15KeepsDataAtMost32768 :
    (narrowEdge.NarrowData 32768 ∧ ∃ t, step narrowEdge = .next t) ∧
    (narrowLast.NarrowData 32767 ∧ (∃ t, step narrowLast = .next t) ∧
      (narrowLast.pc = 32766 → narrowLast.mem.read 32766 ≠ 17)) :=
  ⟨⟨⟨rfl, by intro i; fin_cases i <;> simp [State.reg, narrowEdge, regs], by simp [narrowEdge]⟩, _, rfl⟩,
   ⟨rfl, by intro i; fin_cases i <;> simp [State.reg, narrowLast, regs], by simp [narrowLast]⟩, ⟨_, rfl⟩, by decide⟩

theorem witness_Mask15KeepsRegistersBelow32768 :
    ∃ t, core.run 1 (State.load narrowEdge.cfg [21]) = .next t ∧ narrowEdge.cfg.rmemWide = .mask15 := ⟨_, rfl, rfl⟩

theorem witness_LoadResetsTheMachineOrRefusesTheImage :
    (List.replicate 32768 (21 : Word)).length ≤ 32768 ∧ 32768 < (List.replicate 32769 (21 : Word)).length := by
  rw [List.length_replicate, List.length_replicate]; exact ⟨Nat.le_refl _, Nat.lt_succ_self _⟩

theorem witness_ImageFilesAreLittleEndianPairs :
    ([255, 127] : List Byte).length % 2 = 0 ∧ imageOfBytes [255, 127] = some [32767] ∧
    ([255, 127, 0] : List Byte).length % 2 = 1 := by decide

theorem witness_RunResultIsCleanOrOneFault : narrowEdge.Inv ∧ edge.Inv :=
  ⟨witness_StepKeepsTheInvariant.1, witness_LoadAndHostEventsKeepTheInvariant.1⟩

theorem witness_AssemblingADisassembledInstructionGivesItsWords :
    (Instr.set (.register 7) (.literal 32767)).wf = true ∧ (Instr.out (.invalid 32776)).wf = true ∧
    (Instr.unknown 22).wf = true := by decide

end Sys2Proof.Machine
end

section
/-! SUPPORT. What stands in memory at pc when a fetch succeeds: the words of the fetched instruction (30_encoding.md R90
to R95; 40_execution_loop.md R122, R123). -/

namespace Sys2Proof

theorem encode_of_formatW0 {i j : Instr} {op : Word} {ws rest : List Word}
    (h : formatW0 j ws = .ok (i, rest)) (hop : j.opcode = op) (hargs : j.operands = []) :
    encode i ++ rest = op :: ws := by
  obtain ⟨rfl, rfl⟩ : j = i ∧ ws = rest := by simpa [formatW0] using h
  simp [encode, hop, hargs]

theorem encode_of_formatW1 {i : Instr} {mk : Operand → Instr} {op : Word} {ws rest : List Word}
    (h : formatW1 mk ws = .ok (i, rest)) (hop : ∀ a, (mk a).opcode = op)
    (hargs : ∀ a, (mk a).operands = [a]) : encode i ++ rest = op :: ws := by
  rcases ws with _ | ⟨a, ws⟩
  · simp [formatW1] at h
  · obtain ⟨rfl, rfl⟩ : mk (operandOf a) = i ∧ ws = rest := by simpa [formatW1] using h
    simp [encode, hop, hargs, word_operandOf]

theorem encode_of_formatW2 {i : Instr} {mk : Operand → Operand → Instr} {op : Word} {ws rest : List Word}
    (h : formatW2 mk ws = .ok (i, rest)) (hop : ∀ a b, (mk a b).opcode = op)
    (hargs : ∀ a b, (mk a b).operands = [a, b]) : encode i ++ rest = op :: ws := by
  rcases ws with _ | ⟨a, _ | ⟨b, ws⟩⟩
  · simp [formatW2] at h
  · simp [formatW2] at h
  · obtain ⟨rfl, rfl⟩ : mk (operandOf a) (operandOf b) = i ∧ ws = rest := by simpa [formatW2] using h
    simp [encode, hop, hargs, word_operandOf]

theorem encode_of_formatW3 {i : Instr} {mk : Operand → Operand → Operand → Instr} {op : Word}
    {ws rest : List Word}
    (h : formatW3 mk ws = .ok (i, rest)) (hop : ∀ a b c, (mk a b c).opcode = op)
    (hargs : ∀ a b c, (mk a b c).operands = [a, b, c]) : encode i ++ rest = op :: ws := by
  rcases ws with _ | ⟨a, _ | ⟨b, _ | ⟨c, ws⟩⟩⟩
  · simp [formatW3] at h
  · simp [formatW3] at h
  · simp [formatW3] at h
  · obtain ⟨rfl, rfl⟩ : mk (operandOf a) (operandOf b) (operandOf c) = i ∧ ws = rest := by simpa [formatW3] using h
    simp [encode, hop, hargs, word_operandOf]

/-- A decoded instruction encodes to the words it was read from. -/
theorem encode_of_decodeOpcode {op : Word} {ws rest : List Word} {i : Instr}
    (h : decodeOpcode op ws = .ok (i, rest)) : encode i ++ rest = op :: ws := by
  have word {k : Word} (hk : op.toNat = k.toNat) : k = op := BitVec.eq_of_toNat_eq hk.symm
  unfold decodeOpcode at h
  split at h
  case h_1 hk | h_19 hk | h_22 hk => exact encode_of_formatW0 h (word hk) rfl
  case h_3 hk | h_4 hk | h_7 hk | h_18 hk | h_20 hk | h_21 hk =>
    exact encode_of_formatW1 h (fun _ => word hk) fun _ => rfl
  case h_2 hk | h_8 hk | h_9 hk | h_15 hk | h_16 hk | h_17 hk =>
    exact encode_of_formatW2 h (fun _ _ => word hk) fun _ _ => rfl
  case h_5 hk | h_6 hk | h_10 hk | h_11 hk | h_12 hk | h_13 hk | h_14 hk =>
    exact encode_of_formatW3 h (fun _ _ _ => word hk) fun _ _ _ => rfl
  case h_23 => exact encode_of_formatW0 h rfl rfl

namespace Machine

/-- The words of a fetched instruction stand in memory at pc (R122, R123). -/
theorem instrAtPc_of_fetchInstr {s : State} {i : Instr} (h : fetchInstr s = .ok i) : InstrAtPc s i := by
  obtain ⟨-, hpc, ws, hlen, hws, hd⟩ := fetchInstr_eq_ok.1 h
  have henc : encode i = s.mem.read s.pc :: ws := by simpa using encode_of_decodeOpcode hd
  simp only [InstrAtPc, henc, List.length_cons]
  refine ⟨by omega, fun j hj => ?_⟩
  cases j with
  | zero => rfl
  | succ j => simp [hws j (by omega), Nat.add_comm 1 j, Nat.add_assoc]

end Machine

end Sys2Proof
end

section
/-! SUPPORT. An arriving byte commutes with every operation of a step that does not wait (20_memory.md R87, R88;
60_exceptions.md R251). -/

namespace Sys2Proof.Machine

/-- The state with one more byte behind the bytes of the input source (R22, R54). -/
def State.arrive (b : Byte) (s : State) : State :=
  { s with input := { s.input with pending := s.input.pending ++ [b] } }

/-- The outcome of a step in whose next state one more byte has arrived. -/
def arriveNext (b : Byte) : Result → Result
  | .next t    => .next (t.arrive b)
  | .fault f   => .fault f
  | .refused r => .refused r

variable (b : Byte) (s : State)

theorem State.supply_eq_arrive (h : s.input.ended = false) : s.supply b = s.arrive b := by
  simp [State.supply, h, State.arrive]

/-! ### What the byte leaves as it was -/

@[simp] theorem State.arrive_mem : (s.arrive b).mem = s.mem := rfl
@[simp] theorem State.arrive_pc : (s.arrive b).pc = s.pc := rfl
@[simp] theorem State.arrive_stack : (s.arrive b).stack = s.stack := rfl
@[simp] theorem State.arrive_cfg : (s.arrive b).cfg = s.cfg := rfl
@[simp] theorem top_arrive : (s.arrive b).top = s.top := rfl
@[simp] theorem memRead_arrive (a : Nat) : memRead a (s.arrive b) = memRead a s := rfl
@[simp] theorem resolve_arrive (o : Operand) : resolve o (s.arrive b) = resolve o s := by cases o <;> rfl

@[simp] theorem resolveTarget_arrive (o : Operand) : resolveTarget o (s.arrive b) = resolveTarget o s := by
  simp [resolveTarget]

theorem readWords_arrive (a k : Nat) : readWords (s.arrive b) a k = readWords s a k := by
  induction k generalizing a with
  | zero => rfl
  | succ k ih => simp [readWords, ih]

theorem fetchInstr_arrive : fetchInstr (s.arrive b) = fetchInstr s := by
  simp only [fetchInstr, readWords_arrive]; rfl

/-! ### The updates it commutes with -/

@[simp] theorem setReg_arrive (i : RegIndex) (v : Word) : (s.arrive b).setReg i v = (s.setReg i v).arrive b := rfl
@[simp] theorem advance_arrive (k : Nat) : (s.arrive b).advance k = (s.advance k).arrive b := rfl
@[simp] theorem jumpTo_arrive (k : Nat) : (s.arrive b).jumpTo k = (s.jumpTo k).arrive b := rfl
@[simp] theorem dropTop_arrive : (s.arrive b).dropTop = s.dropTop.arrive b := rfl
@[simp] theorem emit_arrive (c : Byte) : (s.arrive b).emit c = (s.emit c).arrive b := rfl
@[simp] theorem halt_arrive : (s.arrive b).halt = s.halt.arrive b := rfl

@[simp] theorem push_arrive (v : Word) : (s.arrive b).push v = State.arrive b <$> s.push v := by
  cases hc : s.cfg.stackCapacity with
  | none => simp only [State.push, State.arrive_cfg, hc]; rfl
  | some n =>
    simp only [State.push, State.arrive_cfg, State.arrive_stack, hc]
    by_cases hn : s.stack.length + 1 ≤ n <;> simp only [hn] <;> rfl

@[simp] theorem memWrite_arrive (a : Nat) (v : Word) :
    memWrite a v (s.arrive b) = State.arrive b <$> memWrite a v s := by
  unfold memWrite
  split <;> rfl

/-- With a byte already there, IN takes that one and the new byte stays behind (R22, R231). -/
theorem takeByte_arrive (h : s.input.pending ≠ []) :
    (s.arrive b).takeByte = Prod.map id (State.arrive b) <$> s.takeByte := by
  obtain ⟨c, later, hp⟩ := List.exists_cons_of_ne_nil h
  simp [State.takeByte, State.arrive, hp]

/-- With no byte there, IN takes the new one and leaves the source empty again (R231). -/
theorem takeByte_arrive_of_empty (h : s.input.pending = []) : (s.arrive b).takeByte = .ok (b, s) := by
  refine takeByte_eq_ok.2 (.inl ⟨[], by simp [State.arrive, h], ?_⟩)
  simp [State.arrive, ← h]

/-! ### Handlers and instructions -/

/-- A handler that commutes with the arrival has an outcome that does: a fault is entered on the state before the step,
which keeps its byte (R128). -/
theorem conclude_arrive {b : Byte} {s : State} {h h' : Except Stop State} (hh : h' = State.arrive b <$> h) :
    conclude (s.arrive b) h' = arriveNext b (conclude s h) := by
  subst hh
  cases h with
  | ok t => rfl
  | error e => cases e <;> rfl

theorem threeOperand_arrive (f : Word → Word → Except Stop Word) (x y z : Operand) :
    threeOperand f x y z (s.arrive b) = arriveNext b (threeOperand f x y z s) :=
  conclude_arrive (by simp)

theorem branchWhen_arrive (p : Word → Bool) (x y : Operand) :
    branchWhen p x y (s.arrive b) = arriveNext b (branchWhen p x y s) := by
  refine conclude_arrive ?_
  simp only [resolve_arrive, resolveTarget_arrive, map_bind]
  congr 1
  funext v
  split <;> simp

theorem execInp_arrive (o : Operand) (hend : s.input.ended = false) (h : execInp o s ≠ .fault .waitingForInput) :
    execInp o (s.arrive b) = arriveNext b (execInp o s) := by
  cases o with
  | literal v => rfl
  | invalid w => rfl
  | register d =>
    by_cases hp : s.input.pending = []
    · exact absurd (by simp [execInp, dest, State.takeByte, hp, hend]) h
    · exact conclude_arrive (by simp [takeByte_arrive b s hp])

/-- An instruction that does not wait does the same with one more byte at the end of the source, and the byte stays. -/
theorem exec_arrive (i : Instr) (hend : s.input.ended = false) (h : exec i s ≠ .fault .waitingForInput) :
    exec i (s.arrive b) = arriveNext b (exec i s) := by
  cases i with
  | halt | noop | unknown => rfl
  | eq | gt | add | mult | mod | and | or => exact threeOperand_arrive b s _ _ _ _
  | jt | jf => exact branchWhen_arrive b s _ _ _
  | set | not | jmp | out | push | call | rmem | wmem => exact conclude_arrive (by simp)
  | pop x =>
    refine conclude_arrive ?_
    cases ht : s.top <;> simp [ht]
  | ret =>
    refine conclude_arrive ?_
    cases ht : s.top <;> simp [ht]
  | inp x => exact execInp_arrive b s x hend h

/-- A step that does not wait is undisturbed by an arriving byte (R87, R88, R251). -/
theorem step_arrive (hend : s.input.ended = false) (h : step s ≠ .fault .waitingForInput) :
    step (s.arrive b) = arriveNext b (step s) := by
  simp only [step, fetchInstr_arrive] at h ⊢
  cases hf : fetchInstr s with
  | ok i => exact exec_arrive b s i hend (by simpa [hf] using h)
  | error e => exact conclude_arrive rfl

/-- A waiting step is an IN at pc with a register destination and no byte pending (R55, R231). -/
theorem fetchInstr_of_step_waits {s : State} (h : step s = .fault .waitingForInput) :
    ∃ d, fetchInstr s = .ok (.inp (.register d)) ∧ s.input.pending = [] := by
  rw [step_waits_iff, State.waiting] at h
  split at h
  · next d hf => exact ⟨d, hf, by simp_all⟩
  · cases h

/-- A waiting IN takes the byte that arrives, and the source is as before (R55, R231). -/
theorem execInp_arrive_of_empty (d : RegIndex) (h : s.input.pending = []) :
    execInp (.register d) (s.arrive b) = .next ((s.setReg d (b.setWidth 16)).advance 2) := by
  simp [execInp, dest, takeByte_arrive_of_empty b s h]

/-- The operand word of a fetched IN of a register names that register (R95). -/
theorem read_operand_of_fetchInstr_inp {s : State} {d : RegIndex} (h : fetchInstr s = .ok (.inp (.register d))) :
    (s.mem.read (s.pc + 1)).toNat = 32768 + d.val := by
  obtain ⟨-, hread⟩ := instrAtPc_of_fetchInstr h
  rw [hread 1 (by simp [encode, Instr.operands])]
  change (32768 + d.val) % 2 ^ 16 = 32768 + d.val
  omega

end Sys2Proof.Machine
end

section
namespace Sys2Proof.Machine

/-- Settles O41: the arrival of a byte commutes with every step that does not wait, and a step that waits is an IN at pc,
which then takes exactly that byte. -/
theorem arrivingBytesDoNotDisturbAStep : Obligations.ArrivingBytesDoNotDisturbAStep := by
  intro s b
  refine ⟨rfl, rfl, fun hend => ⟨congrArg some (s.supply_eq_arrive b hend), fun t ht => ?_, fun hw => ?_⟩⟩
  · change step (s.arrive b) = .next (t.arrive b)
    rw [step_arrive b s hend (by simp [ht]), ht, arriveNext]
  · obtain ⟨d, hf, hp⟩ := fetchInstr_of_step_waits hw
    refine ⟨d, b.setWidth 16, read_operand_of_fetchInstr_inp hf, BitVec.toNat_setWidth_of_le (by decide), ?_⟩
    change step (s.arrive b) = _
    rw [step, fetchInstr_arrive, hf]
    exact execInp_arrive_of_empty b s d hp

end Sys2Proof.Machine
end

section
/-! SUPPORT. What an instruction leaves as it was (10_state.md R34, R43, R53, R54): the shapes a next state of `exec` can
have, said once for the frames of the registers, the stack and the byte channels. -/

namespace Sys2Proof.Machine

/-- PUSH pushes its resolved operand and CALL its return address (41_move_and_stack.md R151, 43_control_transfer.md
R174). -/
def Pushes (i : Instr) (s : State) (v : Word) : Prop :=
  ∃ a, (i = .push a ∧ resolve a s = .ok v) ∨ (i = .call a ∧ v = BitVec.ofNat 16 (s.pc + 2))

/-- The fields in which a next state of an instruction differs from the state before it: `moves` covers the jumps, the
one-word no-ops and WMEM, `ends` the clean end and fault entry. -/
inductive Footprint (i : Instr) (s : State) : State → Prop
  | writes (d : RegIndex) (v : Word) (k : Nat) (hd : destinationOperand i = some (.register d)) :
      Footprint i s ((s.setReg d v).advance k)
  | pops (d : RegIndex) (v : Word) (hi : i = .pop (.register d)) (hv : s.top = some v) :
      Footprint i s ((s.dropTop.setReg d v).advance 2)
  | takes (d : RegIndex) (b : Byte) (rest : InputSource) (hi : i = .inp (.register d))
      (hin : rest = s.input ∨ s.input = { rest with pending := b :: rest.pending }) :
      Footprint i s ((({ s with input := rest } : State).setReg d (b.setWidth 16)).advance 2)
  | pushes (v : Word) (p : Nat) (hv : Pushes i s v) : Footprint i s { s with stack := s.stack ++ [v], pc := p }
  | returns (e : Word) (hi : i = .ret) (he : s.top = some e) : Footprint i s (s.dropTop.jumpTo e.toNat)
  | emits (a : Operand) (b : Byte) (hi : i = .out a) : Footprint i s ((s.emit b).advance 2)
  | moves (m : Memory) (p : Nat) : Footprint i s { s with mem := m, pc := p }
  | ends (r : RunState) (f : Option FaultRecord) : Footprint i s { s with run := r, fault := f }

/-- Taking a byte changes the input source only: it loses its next byte, or stays at the sentinel (R231, R232). -/
theorem takeByte_input {s u : State} {b : Byte} (h : s.takeByte = .ok (b, u)) :
    ∃ rest, (rest = s.input ∨ s.input = { rest with pending := b :: rest.pending }) ∧ u = { s with input := rest } := by
  obtain ⟨later, hp, rfl⟩ | ⟨-, -, -, rfl⟩ := takeByte_eq_ok.1 h
  · exact ⟨_, .inr (by simp [← hp]), rfl⟩
  · exact ⟨_, .inl rfl, rfl⟩

theorem ThreeOperandEffect.footprint {i : Instr} {f : Word → Word → Except Stop Word} {a b c : Operand} {s t : State}
    (hi : destinationOperand i = some a) (h : ThreeOperandEffect f a b c s t) : Footprint i s t := by
  obtain ⟨d, _, _, v, rfl, -, -, -, rfl⟩ := h
  exact .writes d v 4 hi

theorem Effect.footprint {i : Instr} {s t : State} (h : Effect i s t) : Footprint i s t := by
  cases i with
  | eq | gt | add | mult | mod | and | or => exact ThreeOperandEffect.footprint rfl h
  | set | not => obtain ⟨d, v, rfl, -, rfl⟩ := h; exact .writes d _ 3 rfl
  | rmem => obtain ⟨d, v, rfl, -, -, rfl⟩ := h; exact .writes d _ 3 rfl
  | pop => obtain ⟨d, v, rfl, hv, rfl⟩ := h; exact .pops d v rfl hv
  | inp =>
    obtain ⟨d, b, _, rfl, hb, rfl⟩ := h
    obtain ⟨rest, hin, rfl⟩ := takeByte_input hb
    exact .takes d b rest rfl hin
  | push a => obtain ⟨v, hv, -, rfl⟩ := h; exact .pushes v _ ⟨a, .inl ⟨rfl, hv⟩⟩
  | call a => obtain ⟨v, -, -, -, rfl⟩ := h; exact .pushes _ v.toNat ⟨a, .inr ⟨rfl, rfl⟩⟩
  | out a => obtain ⟨v, -, rfl⟩ := h; exact .emits a _ rfl
  | wmem => obtain ⟨_, _, -, -, -, rfl⟩ := h; exact .moves _ _
  | jmp => obtain ⟨v, -, -, rfl⟩ := h; exact .moves s.mem v.toNat
  | jt | jf =>
    obtain ⟨_, -, ⟨-, u, -, -, rfl⟩ | ⟨-, rfl⟩⟩ := h
    · exact .moves s.mem u.toNat
    · exact .moves s.mem (s.pc + 3)
  | noop | unknown => obtain rfl := h; exact .moves s.mem (s.pc + 1)
  | halt => obtain rfl := h; exact .ends .halted s.fault
  | ret =>
    obtain ⟨-, rfl⟩ | ⟨e, he, -, rfl⟩ := h
    · exact .ends .halted s.fault
    · exact .returns e rfl he

/-- Fault entry changes run and fault only (R128). -/
theorem exec_footprint {i : Instr} {s t : State} (h : exec i s = .next t) : Footprint i s t := by
  obtain h | ⟨k, -, -, rfl⟩ := exec_next h
  · exact h.footprint
  · exact .ends .failed _

theorem State.reg_setReg_of_ne {s : State} {i j : RegIndex} {v : Word} (h : j ≠ i) : (s.setReg i v).reg j = s.reg j := by
  rw [State.reg_setReg, if_neg h]

/-- The top is the last entry (R41). -/
theorem State.stack_eq_of_top {s : State} {v : Word} (h : s.top = some v) : s.stack = s.dropTop.stack ++ [v] :=
  (List.dropLast_append_getLast? v h).symm

/-- The register frame (R34). -/
theorem Footprint.reg {i : Instr} {s t : State} {r : RegIndex} (h : Footprint i s t)
    (hr : destinationOperand i ≠ some (.register r)) : t.reg r = s.reg r := by
  cases h with
  | writes d v k hd =>
    have hne : r ≠ d := fun he => hr (he ▸ hd)
    rw [State.reg_advance, State.reg_setReg_of_ne hne]
  | pops d v hi hv =>
    have hne : r ≠ d := fun he => hr (by rw [he, hi, destinationOperand])
    rw [State.reg_advance, State.reg_setReg_of_ne hne, State.reg_dropTop]
  | takes d b rest hi =>
    have hne : r ≠ d := fun he => hr (by rw [he, hi, destinationOperand])
    rw [State.reg_advance, State.reg_setReg_of_ne hne]
    rfl
  | pushes | returns | emits | moves | ends => rfl

/-- The stack frame (R43). -/
theorem Footprint.stack {i : Instr} {s t : State} (h : Footprint i s t) :
    t.stack = s.stack ∨ (∃ v, Pushes i s v ∧ t.stack = s.stack ++ [v]) ∨
    (∃ v, ((∃ a, i = .pop a) ∨ i = .ret) ∧ s.stack = t.stack ++ [v]) := by
  cases h with
  | pushes v p hv => exact .inr (.inl ⟨v, hv, rfl⟩)
  | pops d v hi hv => exact .inr (.inr ⟨v, .inl ⟨_, hi⟩, State.stack_eq_of_top hv⟩)
  | returns e hi he => exact .inr (.inr ⟨e, .inr hi, State.stack_eq_of_top he⟩)
  | writes | takes | emits | moves | ends => exact .inl rfl

/-- No instruction changes the parameters (00_scope.md R13, log 3). -/
theorem Footprint.cfg {i : Instr} {s t : State} (h : Footprint i s t) : t.cfg = s.cfg := by
  cases h <;> rfl

/-- The frame of outlog (R53). -/
theorem Footprint.outlog {i : Instr} {s t : State} (h : Footprint i s t) :
    t.outlog = s.outlog ∨ ∃ a b, i = .out a ∧ t.outlog = s.outlog ++ [b] := by
  cases h with
  | emits a b hi => exact .inr ⟨a, b, hi, rfl⟩
  | writes | pops | takes | pushes | returns | moves | ends => exact .inl rfl

/-- The frame of the input source (R54, log 4). -/
theorem Footprint.input {i : Instr} {s t : State} (h : Footprint i s t) :
    t.input = s.input ∨ ∃ a b, i = .inp a ∧ s.input = { t.input with pending := b :: t.input.pending } := by
  cases h with
  | takes d b rest hi hin => exact hin.imp_right fun hin => ⟨_, b, hi, hin⟩
  | writes | pops | pushes | returns | emits | moves | ends => exact .inl rfl

end Sys2Proof.Machine
end

section
namespace Sys2Proof.Machine

/-- Settles O46: a register changes only by a write to the destination operand. -/
theorem onlyTheDestinationRegisterChanges : Obligations.OnlyTheDestinationRegisterChanges :=
  fun _ _ _ _ h hr => (exec_footprint h).reg hr

/-- Settles O48: the stack grows by what PUSH or CALL pushes and shrinks by the top that POP or RET takes. -/
theorem onlyFourInstructionsChangeTheStack : Obligations.OnlyFourInstructionsChangeTheStack := by
  intro i s t h
  obtain h | ⟨v, ⟨a, hv⟩, h⟩ | h := (exec_footprint h).stack
  · exact .inl h
  · exact .inr (.inl ⟨a, v, hv.imp And.left And.left, h⟩)
  · exact .inr (.inr h)

/-- Settles O49: only OUT's shape appends to outlog, only IN's takes a byte, and none holds new parameters. -/
theorem channelsChangeOnlyAtOutAndIn : Obligations.ChannelsChangeOnlyAtOutAndIn := by
  intro i s t h
  have hf := exec_footprint h
  exact ⟨hf.outlog, hf.input, hf.cfg⟩

end Sys2Proof.Machine
end

section
/-! SUPPORT. What a writing instruction stores (10_state.md R35). -/

namespace Sys2Proof.Machine

theorem reduce15_le (n : Nat) : (reduce15 n).toNat ≤ 32767 := by
  simp only [reduce15, BitVec.toNat_ofNat]; omega

theorem mask15_le (v : Word) : (mask15 v).toNat ≤ 32767 := by
  rw [mask15, BitVec.toNat_and]; exact Nat.and_le_right

theorem truthWord_eq (p : Bool) : truthWord p = 0 ∨ truthWord p = 1 := by
  cases p with
  | false => exact .inl rfl
  | true => exact .inr rfl

theorem modValue_le {vb vc v : Word} (h : modValue vb vc = .ok v) : v.toNat ≤ 32767 := by
  unfold modValue at h
  split at h
  · cases h
  · rw [← Except.ok.inj h]; exact reduce15_le _

/-- What R35 says of the value `v` that an instruction stores on its way from `s` to `t`. -/
def Stores (i : Instr) (s t : State) (v : Word) : Prop :=
  match i with
  | .add _ _ _ | .mult _ _ _ | .mod _ _ _ | .and _ _ _ | .or _ _ _ | .not _ _ => v.toNat ≤ 32767
  | .eq _ _ _ | .gt _ _ _ => v = 0 ∨ v = 1
  | .inp _ => v.toNat ≤ 255
  | .set _ b => resolve b s = .ok v
  | .pop _ => s.stack = t.stack ++ [v]
  | .rmem _ b => ∃ u, resolve b s = .ok u ∧ v = widen s.cfg (s.mem.read u.toNat)
  | .halt | .push _ | .jmp _ | .jt _ _ | .jf _ _ | .wmem _ _ | .call _ | .ret | .out _ | .noop | .unknown _ => False

theorem ThreeOperandEffect.reg_destination {f : Word → Word → Except Stop Word} {a b c : Operand} {s t : State}
    {d : RegIndex} (h : ThreeOperandEffect f a b c s t) (hd : some a = some (.register d)) :
    ∃ vb vc, f vb vc = .ok (t.reg d) := by
  obtain ⟨_, vb, vc, v, rfl, -, -, hv, rfl⟩ := h
  cases hd
  exact ⟨vb, vc, by simpa using hv⟩

/-- The effect of a writing instruction leaves in its destination what R35 lists. -/
theorem Effect.stores {i : Instr} {s t : State} {d : RegIndex} (h : Effect i s t)
    (hd : destinationOperand i = some (.register d)) : Stores i s t (t.reg d) := by
  cases i with
  | add | mult =>
    obtain ⟨_, _, hv⟩ := ThreeOperandEffect.reg_destination h hd
    exact Except.ok.inj hv ▸ reduce15_le _
  | mod =>
    obtain ⟨_, _, hv⟩ := ThreeOperandEffect.reg_destination h hd
    exact modValue_le hv
  | and | or =>
    obtain ⟨_, _, hv⟩ := ThreeOperandEffect.reg_destination h hd
    exact Except.ok.inj hv ▸ mask15_le _
  | eq | gt =>
    obtain ⟨_, _, hv⟩ := ThreeOperandEffect.reg_destination h hd
    exact Except.ok.inj hv ▸ truthWord_eq _
  | not =>
    obtain ⟨_, v, rfl, -, rfl⟩ := h
    cases hd
    simpa [Stores] using mask15_le (~~~v)
  | set =>
    obtain ⟨_, v, rfl, hv, rfl⟩ := h
    cases hd
    simpa [Stores] using hv
  | rmem =>
    obtain ⟨_, u, rfl, hu, -, rfl⟩ := h
    cases hd
    exact ⟨u, hu, by simp⟩
  | pop =>
    obtain ⟨_, v, rfl, hv, rfl⟩ := h
    cases hd
    simpa [Stores] using State.stack_eq_of_top hv
  | inp =>
    obtain ⟨_, b, u, rfl, -, rfl⟩ := h
    cases hd
    simp only [Stores, State.reg_advance, State.reg_setReg_self, BitVec.toNat_setWidth]
    omega
  | halt | push | jmp | jt | jf | wmem | call | ret | out | noop | unknown => cases hd

end Sys2Proof.Machine
end

section
namespace Sys2Proof.Machine

/-- Settles O51: a running next state is the instruction's effect, whose stored value is the one R35 lists. -/
theorem storedValuesAreInTheirRanges : Obligations.StoredValuesAreInTheirRanges := by
  intro i s t d _ h ht hd
  have hst : Stores i s t (t.reg d) := by
    obtain h | ⟨k, -, -, rfl⟩ := exec_next h
    · exact h.stores hd
    · cases ht
  refine ⟨?_, ?_, ?_, ?_, ?_, ?_⟩
  · rintro b c (rfl | rfl | rfl | rfl | rfl | rfl) <;> exact hst
  · rintro b c (rfl | rfl) <;> exact hst
  · rintro rfl; exact hst
  · rintro b rfl; exact hst
  · rintro rfl; exact hst
  · rintro b v rfl hv
    obtain ⟨u, hu, hw⟩ := hst
    obtain rfl : u = v := Except.ok.inj (hu.symm.trans hv)
    exact ⟨fun hc => by rw [hw, widen, hc], fun hc => by rw [hw, widen, hc, mask15]⟩

end Sys2Proof.Machine
end

section
/-! SUPPORT. One bound for registers and stack entries under Mask15 (10_state.md R56, log 13). -/

namespace Sys2Proof.Machine

section
variable {bound : Nat} {i : Instr} {s t : State} {v : Word}

theorem State.NarrowData.resolve_le (hs : s.NarrowData bound) (hb : 32767 ≤ bound) {o : Operand}
    (h : resolve o s = .ok v) : v.toNat ≤ bound := by
  cases o with
  | literal w =>
    obtain rfl := Except.ok.inj h
    have := w.isLt
    simp only [BitVec.toNat_setWidth]; omega
  | register j => exact Except.ok.inj h ▸ hs.registers j
  | invalid w => cases h

theorem Stores.le (hs : s.NarrowData bound) (hb : 32767 ≤ bound) (h : Stores i s t v) : v.toNat ≤ bound := by
  cases i with
  | add | mult | mod | and | or | not => exact Nat.le_trans h hb
  | eq | gt => obtain rfl | rfl := h <;> exact Nat.le_trans (by decide) hb
  | inp => exact Nat.le_trans h (Nat.le_trans (by decide) hb)
  | set => exact hs.resolve_le hb h
  | pop =>
    have hst : s.stack = t.stack ++ [v] := h
    exact hs.entries v (by simp [hst])
  | rmem =>
    obtain ⟨u, -, rfl⟩ := h
    rw [widen, hs.narrowing]
    exact Nat.le_trans (mask15_le _) hb
  | halt | push | jmp | jt | jf | wmem | call | ret | out | noop | unknown => exact h.elim

/-- Stored values meet every bound from 32767 on; of the pushed ones only CALL's return address may not (R35, R174). -/
theorem exec_keeps_narrowData (hs : s.NarrowData bound) (hb : 32767 ≤ bound) (h : exec i s = .next t)
    (hcall : ∀ a, i = .call a → s.pc + 2 ≤ bound) : t.NarrowData bound where
  narrowing := by rw [(exec_footprint h).cfg]; exact hs.narrowing
  registers r := by
    obtain he | ⟨k, -, -, rfl⟩ := exec_next h
    · by_cases hd : destinationOperand i = some (.register r)
      · exact (he.stores hd).le hs hb
      · exact he.footprint.reg hd ▸ hs.registers r
    · exact hs.registers r
  entries v hv := by
    obtain ht | ⟨w, hw, ht⟩ | ⟨w, -, ht⟩ := (exec_footprint h).stack
    · exact hs.entries v (ht ▸ hv)
    · rw [ht, List.mem_append, List.mem_singleton] at hv
      obtain hv | rfl := hv
      · exact hs.entries v hv
      · obtain ⟨a, ⟨-, hr⟩ | ⟨hi, rfl⟩⟩ := hw
        · exact hs.resolve_le hb hr
        · exact Nat.le_trans (by simpa using Nat.mod_le _ _) (hcall a hi)
    · exact hs.entries v (by simp [ht, hv])

/-- A fetched CALL stands at 32766 or below, with 17 at pc (R93, R123). -/
theorem pc_and_opcode_of_fetchInstr_call {a : Operand} (h : fetchInstr s = .ok (.call a)) :
    s.pc ≤ 32766 ∧ s.mem.read s.pc = 17 := by
  obtain ⟨hlen, hread⟩ := instrAtPc_of_fetchInstr h
  have hlen : s.pc + 2 ≤ 32768 := hlen
  exact ⟨by omega, hread 0 (by simp [encode])⟩

/-- A step keeps the bound unless a CALL at pc pushes a return address above it (R174). -/
theorem step_keeps_narrowData (hs : s.NarrowData bound) (hb : 32767 ≤ bound) (h : step s = .next t)
    (hcall : s.pc ≤ 32766 → s.mem.read s.pc = 17 → s.pc + 2 ≤ bound) : t.NarrowData bound := by
  obtain ⟨-, ⟨i, hi, h⟩ | rfl⟩ := step_eq_next h
  · refine exec_keeps_narrowData hs hb h ?_
    rintro a rfl
    obtain ⟨hpc, hop⟩ := pc_and_opcode_of_fetchInstr_call hi
    exact hcall hpc hop
  · exact ⟨hs.narrowing, hs.registers, hs.entries⟩

end

end Sys2Proof.Machine
end

section
namespace Sys2Proof.Machine

/-- Settles O55: every stored or pushed value meets the bound but CALL's return address pc + 2, which is at most 32768,
and at most 32767 below address 32766. -/
theorem mask15KeepsDataAtMost32768 : Obligations.Mask15KeepsDataAtMost32768 := by
  refine ⟨fun s t hs h => ?_, fun s t hs h hcall => ?_⟩
  · exact step_keeps_narrowData hs (by decide) h fun hpc _ => by omega
  · refine step_keeps_narrowData hs (by decide) h fun hpc hop => ?_
    have hne : s.pc ≠ 32766 := fun he => hcall he (he ▸ hop)
    omega

end Sys2Proof.Machine
end

section
/-! SUPPORT. Steps that do not exist: IN without a byte (10_state.md R55, 47_io.md R231, R232), PUSH and CALL on a full
stack (R44). -/

namespace Sys2Proof.Machine

theorem State.push_of_full {s : State} {n : Nat} (hc : s.cfg.stackCapacity = some n) (hn : n ≤ s.stack.length)
    (v : Word) : s.push v = .error (.stuck .stackFull) := by
  rw [State.push, hc]
  exact if_neg (by omega)

/-- A running machine has a step, or its fetched instruction is stuck. -/
theorem step_of_running {s : State} (hr : s.run = .running) :
    (∃ t, step s = .next t) ∨ ∃ i f, step s = .fault f ∧ exec i s = .fault f := by
  cases hf : fetchInstr s with
  | error e =>
    obtain ⟨h, -⟩ | ⟨h, -⟩ | ⟨-, -, rfl⟩ | ⟨-, -, rfl⟩ := fetchInstr_eq_error.1 hf
    · cases hr.symm.trans h
    · cases hr.symm.trans h
    all_goals exact .inl ⟨s.raise .invalidAddress s.pc, by simp [step, hf]⟩
  | ok i =>
    have hstep : step s = exec i s := by rw [step, hf]
    cases he : exec i s with
    | next t => exact .inl ⟨t, hstep.trans he⟩
    | fault f => exact .inr ⟨i, f, hstep.trans he, he⟩
    | refused r => exact absurd he (exec_ne_refused i s r)

/-- The words of an IN of a register at pc are fetched as that instruction (R93, R95). -/
theorem fetchInstr_eq_inp_register {s : State} {d : RegIndex} :
    fetchInstr s = .ok (.inp (.register d)) ↔
      s.run = .running ∧ s.pc + 1 ≤ 32767 ∧ s.mem.read s.pc = 20 ∧
        (s.mem.read (s.pc + 1)).toNat = 32768 + d.val := by
  constructor
  · intro h
    obtain ⟨hlen, hread⟩ := instrAtPc_of_fetchInstr h
    have hlen : s.pc + 2 ≤ 32768 := hlen
    exact ⟨(fetchInstr_eq_ok.1 h).1, by omega, hread 0 (by simp [encode]), read_operand_of_fetchInstr_inp h⟩
  · rintro ⟨hr, hpc, hop, hw⟩
    have hword : s.mem.read (s.pc + 1) = (Operand.register d).word :=
      BitVec.eq_of_toNat_eq (by rw [hw, Operand.word, BitVec.toNat_ofNat]; omega)
    rw [fetchInstr_eq_ok, hop]
    refine ⟨hr, hpc, [s.mem.read (s.pc + 1)], rfl, fun j hj => ?_, ?_⟩
    · obtain rfl : j = 0 := by simpa using hj
      rfl
    · rw [hword]
      exact congrArg (fun o => Except.ok (Instr.inp o, [])) (operandOf_word (.register d) rfl)

/-- The step waits exactly at a fetched IN of a register, with no byte that comes or may be put in its place (R55). -/
theorem step_waits_iff_fetched_inp {s : State} :
    step s = .fault .waitingForInput ↔
      (∃ d, fetchInstr s = .ok (.inp (.register d))) ∧ s.input.pending = [] ∧
        (s.input.ended = true → s.cfg.inEof = .block) := by
  constructor
  · intro h
    obtain ⟨d, hf, hp⟩ := fetchInstr_of_step_waits h
    have he : exec (.inp (.register d)) s = .fault .waitingForInput := by simpa [step, hf] using h
    obtain ⟨-, -, -, -, hend⟩ | ⟨hne, -⟩ := exec_fault he
    · exact ⟨⟨d, hf⟩, hp, hend⟩
    · cases hne
  · rintro ⟨⟨d, hf⟩, hp, hend⟩
    have ht : s.takeByte = .error (.stuck .waitingForInput) := takeByte_eq_error.2 ⟨hp, .inl ⟨rfl, hend⟩⟩
    rw [step, hf]
    simp [exec, execInp, dest, ht]

end Sys2Proof.Machine
end

section
namespace Sys2Proof.Machine

/-- Settles O12: the wait is a fetched IN without a byte, and the one other reason a running machine has no step is a full
stack. -/
theorem onlyInWaitsAndOnlyWithoutAByte : Obligations.OnlyInWaitsAndOnlyWithoutAByte := by
  intro s
  refine ⟨?_, fun hr hc hw => ?_⟩
  · simp only [step_waits_iff_fetched_inp, fetchInstr_eq_inp_register, exists_and_left, and_assoc]
  · obtain h | ⟨i, f, hstep, h⟩ := step_of_running hr
    · exact h
    · obtain ⟨rfl, -⟩ | ⟨-, -, -, n, -, -, hn, -⟩ := exec_fault h
      · exact absurd hstep hw
      · cases hc.symm.trans hn

/-- Settles O19: on a full stack the push is stuck, after the operand and the target have passed. -/
theorem fullStackLeavesNoStep : Obligations.FullStackLeavesNoStep := by
  intro s n hc hn
  refine ⟨fun a v hv => ?_, fun a v hv hle => ?_⟩
  · simp [exec, execPush, hv, State.push_of_full hc hn]
  · have ht : resolveTarget a s = .ok v.toNat := resolveTarget_eq_ok.2 ⟨v, hv, hle, rfl⟩
    simp [exec, execCall, ht, State.push_of_full hc hn]

end Sys2Proof.Machine
end

section
namespace Sys2Proof.Machine

/-- A program that writes CALL 8 over the last two cells, jumps there, and at 8 pops the return address into R0. -/
def callAtLastCells : List Word := [16, 32766, 17, 16, 32767, 8, 6, 32766, 3, 32768]

/-- Refutes O56: CALL at 32766 pushes 32768 (R174), and POP copies it unmasked into R0 (R152, log 13). -/
theorem not_mask15KeepsRegistersBelow32768 : ¬ Obligations.Mask15KeepsRegistersBelow32768 := by
  intro h
  have hle := h { Config.reference with rmemWide := .mask15 } callAtLastCells 5 _ rfl rfl 0
  exact absurd hle (by decide)

end Sys2Proof.Machine
end

section
/-! SUPPORT. The words of a well-formed instruction are fetched as that instruction (30_encoding.md R93, R95;
40_execution_loop.md R122, R123), and the step is its effect (R135). -/

namespace Sys2Proof

section
variable {a b c : Operand} {mk1 : Operand → Instr} {mk2 : Operand → Operand → Instr}
  {mk3 : Operand → Operand → Operand → Instr}

theorem formatW1_words (h : [a].all Operand.wf = true) (rest : List Word) :
    formatW1 mk1 (a.word :: rest) = .ok (mk1 a, rest) := by
  have ha : a.wf = true := by simpa using h
  simp only [formatW1, operandOf_word a ha]

theorem formatW2_words (h : [a, b].all Operand.wf = true) (rest : List Word) :
    formatW2 mk2 (a.word :: b.word :: rest) = .ok (mk2 a b, rest) := by
  obtain ⟨ha, hb⟩ : a.wf = true ∧ b.wf = true := by simpa using h
  simp only [formatW2, operandOf_word a ha, operandOf_word b hb]

theorem formatW3_words (h : [a, b, c].all Operand.wf = true) (rest : List Word) :
    formatW3 mk3 (a.word :: b.word :: c.word :: rest) = .ok (mk3 a b c, rest) := by
  obtain ⟨ha, hb, hc⟩ : a.wf = true ∧ b.wf = true ∧ c.wf = true := by simpa using h
  simp only [formatW3, operandOf_word a ha, operandOf_word b hb, operandOf_word c hc]

end

/-- Every opcode word from 22 on is unknown (R102). -/
theorem decodeOpcode_of_ge {op : Word} (h : 22 ≤ op.toNat) (ws : List Word) :
    decodeOpcode op ws = .ok (.unknown op, ws) := by
  unfold decodeOpcode
  split
  case h_23 => rfl
  all_goals omega

/-- The decoder reads a well-formed instruction back from its words (R93, R95). -/
theorem decode_encode_append {i : Instr} (h : i.wf = true) (rest : List Word) :
    decode (encode i ++ rest) = .ok (i, rest) := by
  obtain ⟨hop, hargs⟩ : i.opcodeWf = true ∧ i.operands.all Operand.wf = true := by
    simpa only [Instr.wf, Bool.and_eq_true] using h
  cases i with
  | halt | ret | noop => rfl
  | push | pop | jmp | call | out | inp => exact formatW1_words hargs rest
  | set | jt | jf | not | rmem | wmem => exact formatW2_words hargs rest
  | eq | gt | add | mult | mod | and | or => exact formatW3_words hargs rest
  | unknown op => exact decodeOpcode_of_ge (of_decide_eq_true hop) rest

/-- Words that decode with none left over are as many operand words as R93 gives the opcode. -/
theorem length_eq_arity_of_decode {op : Word} {ws : List Word} {i : Instr} (h : decode (op :: ws) = .ok (i, [])) :
    ws.length = arity op := by
  obtain ⟨hle, j, hj⟩ | ⟨-, e, he⟩ := decodeOpcode_cases op ws
  · have hrest : ws.drop (arity op) = [] := congrArg Prod.snd (Except.ok.inj (hj.symm.trans h))
    exact Nat.le_antisymm (List.drop_eq_nil_iff.1 hrest) hle
  · cases he.symm.trans h

namespace Machine

/-- The fetch gives the well-formed instruction whose words stand in memory at pc (R122, R123). -/
theorem fetchInstr_of_instrAtPc {s : State} {i : Instr} (hr : s.run = .running) (hi : i.wf = true)
    (h : InstrAtPc s i) : fetchInstr s = .ok i := by
  obtain ⟨hlen, hread⟩ := h
  have hop : s.mem.read s.pc = i.opcode := hread 0 (by simp [encode])
  have hd : decode (i.opcode :: i.operands.map Operand.word) = .ok (i, []) := by
    simpa [encode] using decode_encode_append hi []
  have hk := length_eq_arity_of_decode hd
  simp only [encode, List.length_cons] at hlen
  rw [fetchInstr_eq_ok, hop]
  refine ⟨hr, by omega, _, hk, fun j hj => ?_, hd⟩
  have hw := hread (j + 1) (by simpa [encode] using hj)
  rw [Nat.add_assoc, Nat.add_comm 1 j, hw]
  rfl

/-- A running machine steps as the instruction at pc executes (R135). -/
theorem step_of_instrAtPc {s : State} {i : Instr} (hr : s.run = .running) (hi : i.wf = true)
    (h : InstrAtPc s i) : step s = exec i s := by
  rw [step, fetchInstr_of_instrAtPc hr hi h]

/-- WMEM with operands that resolve and an address in range (R221). -/
theorem exec_wmem {a b : Operand} {s : State} {addr v : Word} (ha : resolve a s = .ok addr) (hb : resolve b s = .ok v)
    (hle : addr.toNat ≤ 32767) :
    exec (.wmem a b) s = .next { s with mem := s.mem.write addr.toNat v, pc := s.pc + 3 } := by
  simp [exec, execWmem, ha, hb, memWrite, hle, State.advance]

end Machine

end Sys2Proof
end

section
namespace Sys2Proof.Machine

/-- Settles O36: the step is the store of the WMEM at pc, and a one-word instruction stored at the new pc stands there
when the next step fetches. -/
theorem nextFetchSeesTheStoredWord : Obligations.NextFetchSeesTheStoredWord := by
  intro s a b addr v hm hr hw hat ha hb hle
  have hread : ∀ c, (s.mem.write addr.toNat v).read c = if c = addr.toNat then v else s.mem.read c :=
    fun c => Memory.read_write hm.1 addr.toNat c v
  refine ⟨_, (step_of_instrAtPc hr hw hat).trans (exec_wmem ha hb hle), rfl, by simp [hread], fun c hc => ?_,
    fun j hj henc hpc => ?_⟩
  · simp [hread, hc]
  · refine step_of_instrAtPc hr hj ?_
    simp only [InstrAtPc, henc, List.length_singleton, Nat.lt_one_iff]
    refine ⟨by omega, ?_⟩
    rintro _ rfl
    exact (hread _).trans (if_pos hpc.symm)

end Sys2Proof.Machine
end

section
/-! SUPPORT. A canonical memory is the strictly rising list of its cells that do not read as unlisted (20_memory.md
R70, R71). -/

namespace Sys2Proof.Machine

/-- The entries are the cells that do not read as unlisted. -/
theorem Memory.mem_iff_read {m : Memory} (hm : Memory.wf m) {a : Nat} {v : Word} :
    (a, v) ∈ m ↔ m.read a = v ∧ v ≠ unlistedCell := by
  induction m with
  | nil => simp [Memory.read, eq_comm]
  | cons c m ih =>
    obtain ⟨b, w⟩ := c
    obtain ⟨hb, -⟩ := List.pairwise_cons.1 hm.1
    have hw : w ≠ unlistedCell := (hm.2 (b, w) (by simp)).2
    have ih := ih (Memory.wf_tail hm)
    by_cases hab : a = b
    · subst hab
      have hnot : (a, v) ∉ m := fun h => (hb _ h).false
      simp only [List.mem_cons, Prod.mk.injEq, true_and, hnot, or_false, Memory.read, if_true]
      exact ⟨fun h => ⟨h.symm, h ▸ hw⟩, fun h => h.1.symm⟩
    · simp [Memory.read, hab, ih]

/-- Canonical memories with equal reads have the same entries, and so, in rising order, are one list. -/
theorem Memory.eq_of_read_eq {m n : Memory} (hm : Memory.wf m) (hn : Memory.wf n) (h : ∀ a, m.read a = n.read a) :
    m = n := by
  have hirrefl : Std.Irrefl fun c d : Nat × Word => c.1 < d.1 := ⟨fun _ => Nat.lt_irrefl _⟩
  have hasymm : Std.Asymm fun c d : Nat × Word => c.1 < d.1 := ⟨fun _ _ => Nat.lt_asymm⟩
  refine hm.1.eq_of_mem_iff hn.1 fun ⟨a, v⟩ => ?_
  rw [Memory.mem_iff_read hm, Memory.mem_iff_read hn, h]

end Sys2Proof.Machine
end

section
namespace Sys2Proof.Machine

/-- Settles O37: a canonical memory lists exactly its cells that do not read as unlisted, in rising order, and a write keeps
that form. -/
theorem canonicalMemoriesAreDeterminedByTheirReads : Obligations.CanonicalMemoriesAreDeterminedByTheirReads :=
  ⟨fun _ _ hm hn h => Memory.eq_of_read_eq hm hn h, fun _ _ v hm ha => Memory.write_keeps_wf hm ha v⟩

end Sys2Proof.Machine
end

section
/-! SUPPORT. How an instruction moves memory, pc, run and fault, for the memory frame (20_memory.md R73, R74) and the
invariant of a run (10_state.md R37, R44, R52). -/

namespace Sys2Proof.Machine

/-- The ways an instruction that does not fault passes on memory, pc, run and fault: past its own words (R126), the
same with a store (R221), to a checked target (R170), or the clean end (R129). -/
inductive Flow (i : Instr) (s t : State) : Prop
  | advances (hm : t.mem = s.mem) (hp : t.pc = s.pc + (encode i).length) (hr : t.run = s.run) (hf : t.fault = s.fault)
  | stores (addr v : Word) (ha : storeAddress i s = some addr.toNat) (hle : addr.toNat ≤ 32767)
      (ht : t = { s with mem := s.mem.write addr.toNat v, pc := s.pc + (encode i).length })
  | jumps (hi : transfersControl i = true) (hm : t.mem = s.mem) (hp : t.pc ≤ 32767) (hr : t.run = s.run)
      (hf : t.fault = s.fault)
  | halts (hi : transfersControl i = true) (ht : t = s.halt)

section
variable {i : Instr} {s t : State}

theorem ThreeOperandEffect.flow {f : Word → Word → Except Stop Word} {a b c : Operand}
    (hi : (encode i).length = 4) (h : ThreeOperandEffect f a b c s t) : Flow i s t := by
  obtain ⟨_, _, _, _, -, -, -, -, rfl⟩ := h
  exact .advances rfl (by rw [hi]; rfl) rfl rfl

theorem Effect.flow (h : Effect i s t) : Flow i s t := by
  cases i with
  | eq | gt | add | mult | mod | and | or => exact ThreeOperandEffect.flow rfl h
  | set | not => obtain ⟨_, _, -, -, rfl⟩ := h; exact .advances rfl rfl rfl rfl
  | pop => obtain ⟨_, _, -, -, rfl⟩ := h; exact .advances rfl rfl rfl rfl
  | rmem => obtain ⟨_, _, -, -, -, rfl⟩ := h; exact .advances rfl rfl rfl rfl
  | push => obtain ⟨_, -, -, rfl⟩ := h; exact .advances rfl rfl rfl rfl
  | out => obtain ⟨_, -, rfl⟩ := h; exact .advances rfl rfl rfl rfl
  | noop | unknown => obtain rfl := h; exact .advances rfl rfl rfl rfl
  | inp =>
    obtain ⟨_, _, _, -, hb, rfl⟩ := h
    obtain ⟨_, -, rfl⟩ := takeByte_input hb
    exact .advances rfl rfl rfl rfl
  | wmem => obtain ⟨addr, v, ha, -, hle, rfl⟩ := h; exact .stores addr v (by simp [storeAddress, ha]) hle rfl
  | jmp => obtain ⟨_, -, hle, rfl⟩ := h; exact .jumps rfl rfl hle rfl rfl
  | call => obtain ⟨_, -, hle, -, rfl⟩ := h; exact .jumps rfl rfl hle rfl rfl
  | jt | jf =>
    obtain ⟨_, -, ⟨-, _, -, hle, rfl⟩ | ⟨-, rfl⟩⟩ := h
    · exact .jumps rfl rfl hle rfl rfl
    · exact .advances rfl rfl rfl rfl
  | halt => obtain rfl := h; exact .halts rfl rfl
  | ret =>
    obtain ⟨-, rfl⟩ | ⟨_, -, hle, rfl⟩ := h
    · exact .halts rfl rfl
    · exact .jumps rfl rfl hle rfl rfl

/-- Memory takes at most the one store of R221 (R73). -/
theorem Flow.mem (h : Flow i s t) :
    t.mem = s.mem ∨ ∃ a v, storeAddress i s = some a ∧ a ≤ 32767 ∧ t.mem = s.mem.write a v := by
  cases h with
  | advances hm | jumps _ hm => exact .inl hm
  | stores addr v ha hle ht => exact .inr ⟨addr.toNat, v, ha, hle, ht ▸ rfl⟩
  | halts _ ht => exact .inl (ht ▸ rfl)

/-- An instruction whose words lie in memory leaves pc in its range (R37). -/
theorem Flow.pc_le (h : Flow i s t) (hlen : s.pc + (encode i).length ≤ 32768) : t.pc ≤ 32768 := by
  cases h with
  | advances _ hp => exact hp ▸ hlen
  | stores _ _ _ _ ht => exact ht ▸ hlen
  | jumps _ _ hp => exact Nat.le_succ_of_le hp
  | halts _ ht => exact ht ▸ (Nat.le_add_right _ _).trans hlen

/-- Only fault entry records a fault and makes run FAILED (R128). -/
theorem Flow.fault_run (h : Flow i s t) : t.fault = s.fault ∧ (t.run = s.run ∨ t.run = .halted) := by
  cases h with
  | advances _ _ hr hf | jumps _ _ _ hr hf => exact ⟨hf, .inl hr⟩
  | stores _ _ _ _ ht => exact ht ▸ ⟨rfl, .inl rfl⟩
  | halts _ ht => exact ht ▸ ⟨rfl, .inr rfl⟩

/-- The memory frame (R73, R74). -/
theorem exec_mem (h : exec i s = .next t) :
    t.mem = s.mem ∨ ∃ a v, storeAddress i s = some a ∧ a ≤ 32767 ∧ t.mem = s.mem.write a v := by
  obtain h | ⟨k, -, -, rfl⟩ := exec_next h
  · exact h.flow.mem
  · exact .inl rfl

/-- A push happens only where there is room (R44). -/
theorem Effect.room_of_pushes {v : Word} (h : Effect i s t) (hv : Pushes i s v) : Room s := by
  obtain ⟨a, ⟨rfl, -⟩ | ⟨rfl, -⟩⟩ := hv
  · obtain ⟨_, -, hroom, -⟩ := h
    exact hroom
  · obtain ⟨_, -, -, hroom, -⟩ := h
    exact hroom

end

end Sys2Proof.Machine
end

section
namespace Sys2Proof.Machine

/-- Settles O47: memory stays, or takes the one store at the resolved first operand of a WMEM. -/
theorem onlyTheStoredCellChanges : Obligations.OnlyTheStoredCellChanges := by
  intro i s t hm h
  obtain ht | ⟨a, v, ha, -, ht⟩ := exec_mem h
  · exact ⟨fun _ c => by rw [ht], fun _ _ c _ => by rw [ht]⟩
  · refine ⟨fun hnone => (nomatch ha.symm.trans hnone), fun b hb c hc => ?_⟩
    obtain rfl : a = b := Option.some.inj (ha.symm.trans hb)
    rw [ht, Memory.read_write hm.1, if_neg hc]

end Sys2Proof.Machine
end

section
/-! SUPPORT. The invariant of a run along one step. -/

namespace Sys2Proof.Machine

section
variable {i : Instr} {s t : State}

/-- Fault entry with the pc of the failing instruction keeps the invariant (R52, R128). -/
theorem State.Inv.raise (hs : s.Inv) {k : FaultKind} (hk : k = .inputExhausted → s.cfg.inEof = .fail) :
    (s.raise k s.pc).Inv where
  memoryCanonical := hs.memoryCanonical
  pcInRange       := hs.pcInRange
  stackFits       := hs.stackFits
  faultIffFailed  := by simp
  faultAtPc       := by simpa using hk

theorem State.Inv.fault_eq_none (hs : s.Inv) (hr : s.run = .running) : s.fault = none := by
  rw [← Option.not_isSome_iff_eq_none, hs.faultIffFailed, hr]
  exact nofun

/-- The effect of an instruction whose words lie in memory keeps the invariant. -/
theorem Effect.keeps_inv (hs : s.Inv) (hr : s.run = .running) (hlen : s.pc + (encode i).length ≤ 32768)
    (h : Effect i s t) : t.Inv := by
  obtain ⟨hfault, hrun⟩ := h.flow.fault_run
  rw [hs.fault_eq_none hr] at hfault
  rw [hr] at hrun
  constructor
  case memoryCanonical =>
    obtain ht | ⟨a, v, -, ha, ht⟩ := h.flow.mem
    · exact ht ▸ hs.memoryCanonical
    · exact ht ▸ Memory.write_keeps_wf hs.memoryCanonical ha v
  case pcInRange => exact h.flow.pc_le hlen
  case stackFits =>
    intro n hn
    rw [h.footprint.cfg] at hn
    have hfits := hs.stackFits n hn
    obtain ht | ⟨v, hv, ht⟩ | ⟨v, -, ht⟩ := h.footprint.stack
    · exact ht ▸ hfits
    · rw [ht, List.length_append]
      exact h.room_of_pushes hv n hn
    · rw [ht, List.length_append] at hfits
      exact (Nat.le_add_right _ _).trans hfits
  case faultIffFailed => obtain hrun | hrun := hrun <;> simp [hfault, hrun]
  case faultAtPc => simp [hfault]

end

end Sys2Proof.Machine
end

section
namespace Sys2Proof.Machine

/-- Settles O54: the fetched instruction's words lie in memory, so its effect keeps the invariant, and so does fault
entry, of the instruction or of the fetch. -/
theorem stepKeepsTheInvariant : Obligations.StepKeepsTheInvariant := by
  intro s t hs h
  obtain ⟨hr, ⟨i, hi, he⟩ | rfl⟩ := step_eq_next h
  · obtain he | ⟨k, -, hk, rfl⟩ := exec_next he
    · exact he.keeps_inv hs hr (instrAtPc_of_fetchInstr hi).1
    · exact hs.raise hk
  · exact hs.raise nofun

end Sys2Proof.Machine
end

section
/-! SUPPORT. What a decoded instruction is made of: operands classified from words, and an opcode word
(30_encoding.md R90 to R95, R102). -/

namespace Sys2Proof

section
variable {i : Instr} {op : Word} {ws rest : List Word}

theorem wf_of_formatW0 {j : Instr} (h : formatW0 j ws = .ok (i, rest)) (hwf : j.wf = true) : i.wf = true := by
  obtain ⟨rfl, -⟩ : j = i ∧ ws = rest := by simpa [formatW0] using h
  exact hwf

theorem wf_of_formatW1 {mk : Operand → Instr} (h : formatW1 mk ws = .ok (i, rest))
    (hwf : ∀ a, (mk a).wf = [a].all Operand.wf) : i.wf = true := by
  rcases ws with _ | ⟨a, ws⟩
  · simp [formatW1] at h
  · obtain ⟨rfl, -⟩ : mk (operandOf a) = i ∧ ws = rest := by simpa [formatW1] using h
    simp [hwf, operandOf_wf]

theorem wf_of_formatW2 {mk : Operand → Operand → Instr} (h : formatW2 mk ws = .ok (i, rest))
    (hwf : ∀ a b, (mk a b).wf = [a, b].all Operand.wf) : i.wf = true := by
  rcases ws with _ | ⟨a, _ | ⟨b, ws⟩⟩
  · simp [formatW2] at h
  · simp [formatW2] at h
  · obtain ⟨rfl, -⟩ : mk (operandOf a) (operandOf b) = i ∧ ws = rest := by simpa [formatW2] using h
    simp [hwf, operandOf_wf]

theorem wf_of_formatW3 {mk : Operand → Operand → Operand → Instr} (h : formatW3 mk ws = .ok (i, rest))
    (hwf : ∀ a b c, (mk a b c).wf = [a, b, c].all Operand.wf) : i.wf = true := by
  rcases ws with _ | ⟨a, _ | ⟨b, _ | ⟨c, ws⟩⟩⟩
  · simp [formatW3] at h
  · simp [formatW3] at h
  · simp [formatW3] at h
  · obtain ⟨rfl, -⟩ : mk (operandOf a) (operandOf b) (operandOf c) = i ∧ ws = rest := by simpa [formatW3] using h
    simp [hwf, operandOf_wf]

/-- A decoded instruction is well-formed: its operands are classes of words (R95), and an unknown opcode word is none of
the 22 that R93 lists (R102). -/
theorem wf_of_decodeOpcode (h : decodeOpcode op ws = .ok (i, rest)) : i.wf = true := by
  unfold decodeOpcode at h
  split at h
  case h_1 | h_19 | h_22 => exact wf_of_formatW0 h rfl
  case h_3 | h_4 | h_7 | h_18 | h_20 | h_21 => exact wf_of_formatW1 h fun _ => rfl
  case h_2 | h_8 | h_9 | h_15 | h_16 | h_17 => exact wf_of_formatW2 h fun _ _ => rfl
  case h_5 | h_6 | h_10 | h_11 | h_12 | h_13 | h_14 => exact wf_of_formatW3 h fun _ _ _ => rfl
  case h_23 =>
    have hop : 22 ≤ op.toNat := by
      by_contra
      interval_cases op.toNat <;> contradiction
    exact wf_of_formatW0 h (by simp [Instr.wf, Instr.opcodeWf, Instr.operands, hop])

end

end Sys2Proof
end

section
namespace Sys2Proof

/-- Settles O1: each format reads its operands back from their words, and an unknown opcode word has an arm of its own. -/
theorem decodeOfEncodeIsTheInstruction : Obligations.DecodeOfEncodeIsTheInstruction :=
  fun _ rest h => decode_encode_append h rest

/-- Settles O2: the opcode word, read by the dispatch, heads the encoding, and each operand word is that of its class. -/
theorem encodeOfDecodeIsTheWords : Obligations.EncodeOfDecodeIsTheWords := by
  intro ws i rest h
  cases ws with
  | nil => cases h
  | cons op ws => exact ⟨wf_of_decodeOpcode h, encode_of_decodeOpcode h⟩

/-- Settles O3: the decoder drops as many operand words as the opcode word asks for, and the encoding is what lies before
the rest. -/
theorem lengthComesFromTheOpcodeWordAlone : Obligations.LengthComesFromTheOpcodeWordAlone := by
  intro op ws
  obtain ⟨hle, j, hj⟩ | ⟨hlt, e, he⟩ := decodeOpcode_cases op ws
  · refine ⟨fun i rest h => ?_, iff_of_true ⟨j, _, hj⟩ hle⟩
    obtain ⟨rfl, rfl⟩ := Prod.mk.inj (Except.ok.inj (hj.symm.trans h))
    have hlen := congrArg List.length (encode_of_decodeOpcode hj)
    simp only [List.length_append, List.length_drop, List.length_cons] at hlen
    exact ⟨by omega, rfl⟩
  · have hnone : ∀ i rest, decode (op :: ws) ≠ .ok (i, rest) := fun i rest h => nomatch he.symm.trans h
    exact ⟨fun i rest h => absurd h (hnone i rest), iff_of_false (fun ⟨i, rest, h⟩ => hnone i rest h) (by omega)⟩

/-- Settles O4: the decoder evaluates to each instruction. -/
theorem specWordsDecodeToTheirInstructions : Obligations.SpecWordsDecodeToTheirInstructions := by
  unfold Obligations.SpecWordsDecodeToTheirInstructions
  decide

end Sys2Proof
end

section
/-! SUPPORT. The three classes of operand words by their numbers (30_encoding.md R95). -/

namespace Sys2Proof

section
variable {w : Word}

theorem operandOf_of_le (h : w.toNat ≤ 32767) : operandOf w = .literal (w.setWidth 15) := by
  rw [operandOf, if_pos h]

theorem operandOf_of_eq {i : RegIndex} (h : w.toNat = 32768 + i.val) : operandOf w = .register i := by
  have hw : w = (Operand.register i).word := by
    apply BitVec.eq_of_toNat_eq
    simp only [Operand.word, BitVec.toNat_ofNat]
    omega
  rw [hw, operandOf_word _ rfl]

theorem operandOf_of_ge (h : 32776 ≤ w.toNat) : operandOf w = .invalid w := by
  rw [operandOf, if_neg (by omega), dif_neg (by omega)]

end

end Sys2Proof
end

section
namespace Sys2Proof.Machine

/-- Settles O5: a literal's value is its own word, by the round trip of operand words; the other two classes resolve
as R97 says. -/
theorem valueWordsResolveByTheirClass : Obligations.ValueWordsResolveByTheirClass := by
  refine fun w s => ⟨fun h => ?_, fun i h => ?_, fun h => ?_⟩
  · have hw := word_operandOf w
    rw [operandOf_of_le h] at hw ⊢
    exact congrArg Except.ok hw
  · rw [operandOf_of_eq h]; rfl
  · rw [operandOf_of_ge h]; rfl

/-- Settles O6: only the register class is a destination. -/
theorem onlyRegisterWordsAreDestinations : Obligations.OnlyRegisterWordsAreDestinations := by
  refine fun w => ⟨fun i h => dest_eq_ok.2 (operandOf_of_eq h), fun h => dest_eq_error.2 ⟨fun d => ?_, rfl⟩⟩
  obtain h | h := h
  · rw [operandOf_of_le (by omega)]; exact nofun
  · rw [operandOf_of_ge h]; exact nofun

end Sys2Proof.Machine
end

section
/-! SUPPORT. The items `disassemble` writes: no label is among them, and they assemble to the words they spell
(30_encoding.md R108). -/

namespace Sys2Proof.Machine

/-- An operand the text form can spell is written plainly and has its own word, whatever the labels. -/
theorem asmOperandOf_spec {o : Operand} {x : AsmOperand} (h : asmOperandOf o = some x) :
    x.Plain ∧ ∀ labels, x.word labels = some o.word := by
  cases o with
  | literal v =>
    obtain rfl : AsmOperand.number v.toNat = x := Option.some.inj h
    refine ⟨trivial, fun labels => ?_⟩
    have hv : v.toNat ≤ 32767 := Nat.le_of_lt_succ v.isLt
    simp [AsmOperand.word, literalWord, hv, Operand.word]
  | register i =>
    obtain rfl : AsmOperand.register i = x := Option.some.inj h
    exact ⟨trivial, fun _ => rfl⟩
  | invalid w => cases h

/-- Operands the text form can spell, all of them, are as many and have the operand words. -/
theorem asmOperandsOf_spec {os : List Operand} {xs : List AsmOperand} (h : asmOperandsOf os = some xs) :
    (∀ x ∈ xs, x.Plain) ∧ xs.length = os.length ∧
      ∀ labels, operandWords labels xs = some (os.map Operand.word) := by
  induction os generalizing xs with
  | nil =>
    obtain rfl : [] = xs := Option.some.inj h
    exact ⟨nofun, rfl, fun _ => rfl⟩
  | cons o os ih =>
    rw [asmOperandsOf] at h
    split at h
    · next x ys hx hys =>
      obtain rfl : x :: ys = xs := Option.some.inj h
      obtain ⟨hplain, hlen, hwords⟩ := ih hys
      obtain ⟨hxplain, hxword⟩ := asmOperandOf_spec hx
      refine ⟨List.forall_mem_cons.2 ⟨hxplain, hplain⟩, by simp [hlen], fun labels => ?_⟩
      simp [operandWords, hxword, hwords]
    · cases h

/-- What `disassemble` writes: one statement, or a `.word` for each word. -/
theorem disassemble_cases (i : Instr) :
    (∃ args, i.opcode.toNat ≤ 21 ∧ asmOperandsOf i.operands = some args ∧ disassemble i = [.instr i.opcode args]) ∨
    disassemble i = (encode i).map (fun w => .word w.toNat) := by
  unfold disassemble
  split
  · next args hop hargs => exact .inl ⟨args, of_decide_eq_true hop, hargs, rfl⟩
  · exact .inr rfl

theorem disassemble_plain (i : Instr) : ∀ x ∈ disassemble i, x.Plain := by
  obtain ⟨args, hop, hargs, hd⟩ | hd := disassemble_cases i
  · rw [hd, List.forall_mem_singleton]
    exact ⟨hop, (asmOperandsOf_spec hargs).1⟩
  · rw [hd, List.forall_mem_map]
    exact fun _ _ => trivial

theorem labelTable_of_plain {is : List AsmItem} (h : ∀ x ∈ is, x.Plain) (a : Nat) : labelTable a is = some [] := by
  induction is generalizing a with
  | nil => rfl
  | cons x is ih =>
    obtain ⟨hx, his⟩ := List.forall_mem_cons.1 h
    cases x with
    | label n => exact hx.elim
    | instr op args => exact ih his _
    | word n => exact ih his _

theorem itemsWords_word_map (labels : List (Text × Nat)) (ws : List Word) :
    itemsWords labels (ws.map (fun w => .word w.toNat)) = some ws := by
  induction ws with
  | nil => rfl
  | cons w ws ih =>
    have hw : w.toNat ≤ 65535 := Nat.le_of_lt_succ w.isLt
    simp [itemsWords, ih, AsmItem.words, hw]

/-- A well-formed instruction has as many operands as R93 gives its opcode word. -/
theorem operands_length_of_wf {i : Instr} (h : i.wf = true) : i.operands.length = arity i.opcode := by
  have hd : decode (i.opcode :: i.operands.map Operand.word) = .ok (i, []) := by
    simpa [encode] using decode_encode_append h []
  simpa using length_eq_arity_of_decode hd

/-- The items of a well-formed instruction have its words. -/
theorem itemsWords_disassemble {i : Instr} (h : i.wf = true) (labels : List (Text × Nat)) :
    itemsWords labels (disassemble i) = some (encode i) := by
  obtain ⟨args, -, hargs, hd⟩ | hd := disassemble_cases i
  · obtain ⟨-, hlen, hwords⟩ := asmOperandsOf_spec hargs
    have hk : args.length = arity i.opcode := hlen.trans (operands_length_of_wf h)
    simp [hd, itemsWords, AsmItem.words, hk, hwords, encode]
  · rw [hd, itemsWords_word_map]

theorem assembleItems_disassemble {i : Instr} (h : i.wf = true) : assembleItems (disassemble i) = some (encode i) := by
  rw [assembleItems, labelTable_of_plain (disassemble_plain i)]
  exact itemsWords_disassemble h []

/-- The printed text of plain items assembles as the items do. -/
theorem assemble_itemsText {is : List AsmItem} (h : ∀ x ∈ is, x.Plain) : assemble (itemsText is) = assembleItems is := by
  rw [assemble, items_of_itemsText h]

end Sys2Proof.Machine
end

section
namespace Sys2Proof.Machine

/-- Settles O60: the items have the instruction's words, and the printed text is read back as the items. -/
theorem assemblingADisassembledInstructionGivesItsWords :
    Obligations.AssemblingADisassembledInstructionGivesItsWords := by
  intro i h
  rw [assemble_itemsText (disassemble_plain i)]
  exact ⟨assembleItems_disassemble h, assembleItems_disassemble h⟩

end Sys2Proof.Machine
end

section
/-! SUPPORT. What a step can do, from the fetch to the end (40_execution_loop.md R121 to R130, R135). -/

namespace Sys2Proof.Machine

section
variable {i : Instr} {s t : State}

/-! ### When the fetch gives no instruction -/

theorem step_of_fetch_error {e : Stop} (h : fetchInstr s = .error e) : step s = conclude s (.error e) := by
  rw [step, h]

/-- A word of the instruction lies beyond memory: the fetch raises (R122, R123). -/
theorem step_of_fetch_beyond (hr : s.run = .running)
    (h : 32767 < s.pc ∨ 32767 < s.pc + arity (s.mem.read s.pc)) :
    step s = .next (s.raise .invalidAddress s.pc) := by
  have hf : fetchInstr s = .error (.raise .invalidAddress) := by
    refine fetchInstr_eq_error.2 (.inr (.inr ?_))
    exact h.symm.imp (fun h => ⟨hr, h, rfl⟩) fun h => ⟨hr, h, rfl⟩
  exact step_of_fetch_error hf

theorem step_of_halted (hr : s.run = .halted) : step s = .fault .haltedIsTerminal :=
  step_of_fetch_error (fetchInstr_eq_error.2 (.inl ⟨hr, rfl⟩))

theorem step_of_failed (hr : s.run = .failed) : step s = .fault .failedIsTerminal :=
  step_of_fetch_error (fetchInstr_eq_error.2 (.inr (.inl ⟨hr, rfl⟩)))

/-- Once a run has ended, only how it ended decides what the step answers (R130). -/
theorem step_congr_of_ended (hr : s.run ≠ .running) (ht : t.run = s.run) : step t = step s := by
  cases hs : s.run with
  | running => exact absurd hs hr
  | halted => rw [step_of_halted hs, step_of_halted (ht.trans hs)]
  | failed => rw [step_of_failed hs, step_of_failed (ht.trans hs)]

/-- The host reaches the input source and nothing else of the state (R88, R284). -/
theorem hostMove_changes_input_only {e : HostEvent} (h : hostMove e s = some t) : t = { s with input := t.input } := by
  cases e with
  | supply b =>
    obtain rfl : s.supply b = t := Option.some.inj h
    unfold State.supply
    split <;> rfl
  | endInput =>
    obtain rfl : s.endInput = t := Option.some.inj h
    rfl
  | terminate => cases h

/-! ### When it gives one -/

/-- The opcode word of a fetched instruction stands at pc (R122). -/
theorem read_pc_of_fetchInstr (h : fetchInstr s = .ok i) : s.mem.read s.pc = i.opcode :=
  (instrAtPc_of_fetchInstr h).2 0 (by simp [encode])

/-- An instruction of one word needs that word at pc and no other (R122). -/
theorem step_of_one_word {w : Word} (hi : i.wf = true) (henc : encode i = [w]) (hr : s.run = .running)
    (hpc : s.pc ≤ 32767) (hw : s.mem.read s.pc = w) : step s = exec i s := by
  refine step_of_instrAtPc hr hi ?_
  simp only [InstrAtPc, henc, List.length_singleton, Nat.lt_one_iff]
  refine ⟨by omega, ?_⟩
  rintro _ rfl
  exact hw

/-- A step that exists is the effect of the fetched instruction, or fault entry, of the instruction or of the fetch. -/
theorem step_next (h : step s = .next t) :
    s.run = .running ∧ ((∃ i, fetchInstr s = .ok i ∧ Effect i s t) ∨ FaultEntry s t) := by
  obtain ⟨hr, ⟨i, hi, he⟩ | rfl⟩ := step_eq_next h
  · exact ⟨hr, (exec_next he).imp_left fun he => ⟨i, hi, he⟩⟩
  · exact ⟨hr, .inr (faultEntry_raise s _ nofun nofun)⟩

/-- An effect that ends the run is the clean end, of HALT or of RET on an empty stack (R129, R250). -/
theorem Effect.of_halted (h : Effect i s t) (hr : s.run = .running) (ht : t.run = .halted) :
    t = s.halt ∧ (i = .halt ∨ i = .ret ∧ s.stack = []) := by
  have hne : t.run ≠ s.run := by rw [ht, hr]; exact nofun
  cases h.flow with
  | advances _ _ hrun => exact absurd hrun hne
  | stores _ _ _ _ hst => exact absurd (hst ▸ rfl) hne
  | jumps _ _ _ hrun => exact absurd hrun hne
  | halts hi hhalt =>
    refine ⟨hhalt, ?_⟩
    cases i with
    | halt => exact .inl rfl
    | ret =>
      obtain ⟨htop, -⟩ | ⟨_, -, -, rfl⟩ := h
      · exact .inr ⟨rfl, List.getLast?_eq_none_iff.1 htop⟩
      · exact absurd rfl hne
    | jmp => obtain ⟨_, -, -, rfl⟩ := h; exact absurd rfl hne
    | call => obtain ⟨_, -, -, -, rfl⟩ := h; exact absurd rfl hne
    | jt | jf => obtain ⟨_, -, ⟨-, _, -, -, rfl⟩ | ⟨-, rfl⟩⟩ := h <;> exact absurd rfl hne
    | _ => cases hi

/-- An instruction that transfers no control moves pc past its own words (R126). -/
theorem Flow.pc_of_not_transfersControl (h : Flow i s t) (hi : transfersControl i = false) :
    t.pc = s.pc + (encode i).length := by
  cases h with
  | advances _ hp => exact hp
  | stores _ _ _ _ ht => rw [ht]
  | jumps hc | halts hc => cases hi.symm.trans hc

end

end Sys2Proof.Machine
end

section
namespace Sys2Proof.Machine

/-- Settles O8: the fetch raises, at the opcode word or at an operand word. -/
theorem fetchBeyondMemoryRaisesInvalidAddress : Obligations.FetchBeyondMemoryRaisesInvalidAddress :=
  fun _ hr h => step_of_fetch_beyond hr h

/-- Settles O9: an ended run fetches nothing, and a host event keeps run. -/
theorem haltedAndFailedAreTerminal : Obligations.HaltedAndFailedAreTerminal := by
  refine fun s => ⟨step_of_halted, step_of_failed, fun e t h => ?_⟩
  have ht := hostMove_changes_input_only h
  exact ⟨ht, fun hr => step_congr_of_ended hr (by rw [ht])⟩

/-- Settles O10: no effect of an instruction makes run FAILED, so such a step is fault entry. -/
theorem faultsArePrecise : Obligations.FaultsArePrecise := by
  intro s t h ht
  obtain ⟨hr, ⟨i, -, he⟩ | ⟨k, hk, -, rfl⟩⟩ := step_next h
  · obtain hrun | hrun := he.flow.fault_run.2
    · cases ht.symm.trans (hrun.trans hr)
    · cases ht.symm.trans hrun
  · exact ⟨k, hk, rfl⟩

/-- Settles O11: fault entry leaves run FAILED, and only HALT and an empty RET have the clean end as their effect. -/
theorem cleanEndComesFromHaltOrEmptyRet : Obligations.CleanEndComesFromHaltOrEmptyRet := by
  intro s t h ht
  obtain ⟨hr, ⟨i, hi, he⟩ | ⟨k, -, -, rfl⟩⟩ := step_next h
  · obtain ⟨hhalt, rfl | ⟨rfl, hst⟩⟩ := he.of_halted hr ht
    · exact ⟨hhalt, .inl (read_pc_of_fetchInstr hi)⟩
    · exact ⟨hhalt, .inr ⟨read_pc_of_fetchInstr hi, hst⟩⟩
  · cases ht

/-- Settles O50: a running next state is the instruction's effect, which advances pc unless control is transferred. -/
theorem pcAdvancesByTheInstructionsWords : Obligations.PcAdvancesByTheInstructionsWords := by
  intro i s t _ h ht hi
  obtain he | ⟨k, -, -, rfl⟩ := exec_next h
  · exact he.flow.pc_of_not_transfersControl hi
  · cases ht

/-- Settles O59: run alone decides the result of a machine that has not failed, and a failed one has a fault recorded. -/
theorem runResultIsCleanOrOneFault : Obligations.RunResultIsCleanOrOneFault := by
  intro s hs
  cases hr : s.run with
  | running => simp [State.result, hr]
  | halted => simp [State.result, hr]
  | failed =>
    obtain ⟨⟨kind, cursor⟩, hf⟩ := Option.isSome_iff_exists.1 (hs.faultIffFailed.2 hr)
    simp [State.result, hr, hf]

/-- Settles O7: the words at pc are fetched as the instruction, and nothing stands around its execution. -/
theorem stepRunsTheInstructionAtPc : Obligations.StepRunsTheInstructionAtPc :=
  fun _ _ hr hi h => step_of_instrAtPc hr hi h

/-- Settles O13: the one word of HALT is 0. -/
theorem haltEndsTheRunAndChangesNothingElse : Obligations.HaltEndsTheRunAndChangesNothingElse :=
  ⟨fun _ => rfl, fun _ => rfl, fun _ hr hpc hw => step_of_one_word (i := .halt) rfl rfl hr hpc hw⟩

/-- Settles O14: the one word of NOOP is 21, and pc 32768 is beyond memory. -/
theorem noopAdvancesPcOnly : Obligations.NoopAdvancesPcOnly := by
  refine ⟨fun _ => rfl, fun _ => rfl, fun s hr hpc hw => step_of_one_word (i := .noop) rfl rfl hr hpc hw,
    fun s hr hpc _ => ?_⟩
  rw [hpc]
  exact step_of_fetch_beyond (s := { s with pc := 32768 }) hr (.inl (by decide : 32767 < 32768))

/-- Settles O15: an opcode word from 22 on is the one word of an unknown instruction. -/
theorem unknownOpcodeIsAOneWordNoOp : Obligations.UnknownOpcodeIsAOneWordNoOp := by
  intro op hop
  have hwf : (Instr.unknown op).wf = true := by simp [Instr.wf, Instr.opcodeWf, Instr.operands, hop]
  exact ⟨fun rest => decodeOpcode_of_ge hop rest, fun _ => rfl,
    fun _ hr hpc hw => step_of_one_word hwf rfl hr hpc hw⟩

end Sys2Proof.Machine
end

section
/-! SUPPORT. An operand that is no destination (30_encoding.md R98), the top of the stack (10_state.md R41), and what
SET, PUSH and POP do (41_move_and_stack.md R150 to R152). -/

namespace Sys2Proof.Machine

section
variable {a : Operand} {s : State} {v : Word}

/-- A handler that asks for a destination first goes no further without one (R125). -/
theorem conclude_dest_bind (ha : ∀ d, a ≠ .register d) (f : RegIndex → Except Stop State) :
    conclude s (dest a >>= f) = .next (s.raise .invalidDestination s.pc) := by
  rw [dest_eq_error.2 ⟨ha, rfl⟩]
  rfl

/-- Every instruction checks its destination before anything else (R98, R125). -/
theorem raises_invalidDestination {i : Instr} (hi : destinationOperand i = some a) (ha : ∀ d, a ≠ .register d) :
    Raises i s .invalidDestination := by
  cases i with
  | set | pop | eq | gt | add | mult | mod | and | or | not | rmem | inp =>
    obtain rfl := Option.some.inj hi
    exact conclude_dest_bind ha _
  | _ => cases hi

theorem State.top_of_append {below : List Word} (h : s.stack = below ++ [v]) : s.top = some v := by
  rw [State.top, h, List.getLast?_concat]

theorem State.dropTop_of_append {below : List Word} (h : s.stack = below ++ [v]) :
    s.dropTop = { s with stack := below } := by
  rw [State.dropTop, h, List.dropLast_concat]

theorem State.top_of_empty (h : s.stack = []) : s.top = none :=
  List.getLast?_eq_none_iff.2 h

/-- SET of a register and an operand that resolves (R150). -/
theorem exec_set {b : Operand} (d : RegIndex) (hb : resolve b s = .ok v) :
    exec (.set (.register d) b) s = .next ((s.setReg d v).advance 3) := by
  simp [exec, execSet, dest, hb]

/-- PUSH of an operand that resolves, with room on the stack (R151). -/
theorem exec_push (ha : resolve a s = .ok v) (hroom : Room s) :
    exec (.push a) s = .next { s with stack := s.stack ++ [v], pc := s.pc + 2 } := by
  have hpush : s.push v = .ok { s with stack := s.stack ++ [v] } := State.push_eq_ok.2 ⟨hroom, rfl⟩
  simp [exec, execPush, ha, hpush, State.advance]

/-- POP into a register moves the top entry there (R152). -/
theorem exec_pop (d : RegIndex) (htop : s.top = some v) :
    exec (.pop (.register d)) s = .next ((s.dropTop.setReg d v).advance 2) := by
  simp [exec, execPop, dest, htop]

/-- POP into a register of a stack without a top entry underflows (R152). -/
theorem exec_pop_of_no_top (d : RegIndex) (htop : s.top = none) :
    exec (.pop (.register d)) s = .next (s.raise .stackUnderflow s.pc) := by
  simp [exec, execPop, dest, htop]

end

end Sys2Proof.Machine
end

section
namespace Sys2Proof.Machine

/-- Settles O16: the destination is checked, then the value operand resolved, then the register written. -/
theorem setWritesTheResolvedValue : Obligations.SetWritesTheResolvedValue :=
  ⟨fun _ _ _ => rfl, fun d _ _ _ hb => exec_set d hb, fun _ _ _ ha => raises_invalidDestination rfl ha,
    fun _ _ _ => rfl⟩

/-- Settles O17: the operand is resolved, and with room the push happens. -/
theorem pushAppendsTheResolvedValue : Obligations.PushAppendsTheResolvedValue :=
  ⟨fun _ _ => rfl, fun _ _ _ ha hroom => exec_push ha hroom, fun _ _ => rfl⟩

/-- Settles O18: the destination is checked before the stack, whose last entry is the top. -/
theorem popMovesTheTopIntoARegister : Obligations.PopMovesTheTopIntoARegister := by
  refine ⟨fun _ _ => rfl, fun d s below v h => ?_, fun d s h => exec_pop_of_no_top d (s.top_of_empty h),
    fun _ _ ha => raises_invalidDestination rfl ha⟩
  rw [exec_pop d (s.top_of_append h), s.dropTop_of_append h]
  rfl

end Sys2Proof.Machine
end

section
/-! SUPPORT. What the shape with one destination and two value operands does (40_execution_loop.md R125): its result, and
its faults before its own condition; and the value a comparison writes (42_compare.md). -/

namespace Sys2Proof.Machine

/-- The destination holds the computed value, once both operands resolve and the condition passes. -/
theorem threeOperand_of_value {f : Word → Word → Except Stop Word} {b c : Operand} {s : State} {vb vc v : Word}
    (d : RegIndex) (hb : resolve b s = .ok vb) (hc : resolve c s = .ok vc) (hv : f vb vc = .ok v) :
    threeOperand f (.register d) b c s = .next ((s.setReg d v).advance 4) := by
  simp [threeOperand, dest, hb, hc, hv]

/-- Every instruction of this shape checks the destination, then the second operand, then the third (R125, R247). -/
theorem threeOperandFaults_of_exec {f : Word → Word → Except Stop Word} {mk : Operand → Operand → Operand → Instr}
    (hexec : ∀ a b c s, exec (mk a b c) s = threeOperand f a b c s) : ThreeOperandFaults mk := by
  refine ⟨fun a b c s ha => ?_, fun d w c s => ?_, fun d b w s vb hb => ?_⟩
  · exact (hexec a b c s).trans (conclude_dest_bind ha _)
  · exact hexec (.register d) (.invalid w) c s
  · have hc : resolve (.invalid w) s = .error (.raise .invalidOperand) := rfl
    refine (hexec (.register d) b (.invalid w) s).trans ?_
    simp [threeOperand, dest, hb, hc, State.raise]

theorem truthWord_decide (p : Prop) [Decidable p] : truthWord (decide p) = if p then 1 else 0 := by
  simp [truthWord]

/-- EQ into a register of operands that resolve (R160). -/
theorem exec_eq {b c : Operand} {s : State} {vb vc : Word} (d : RegIndex) (hb : resolve b s = .ok vb)
    (hc : resolve c s = .ok vc) :
    exec (.eq (.register d) b c) s = .next ((s.setReg d (if vb.toNat = vc.toNat then 1 else 0)).advance 4) := by
  refine threeOperand_of_value d hb hc (congrArg Except.ok ?_)
  rw [truthWord_decide]
  simp only [BitVec.toNat_inj]

/-- GT into a register of operands that resolve (R161). -/
theorem exec_gt {b c : Operand} {s : State} {vb vc : Word} (d : RegIndex) (hb : resolve b s = .ok vb)
    (hc : resolve c s = .ok vc) :
    exec (.gt (.register d) b c) s = .next ((s.setReg d (if vc.toNat < vb.toNat then 1 else 0)).advance 4) :=
  threeOperand_of_value d hb hc (congrArg Except.ok (truthWord_decide (vb.toNat > vc.toNat)))

end Sys2Proof.Machine
end

section
namespace Sys2Proof.Machine

/-- Settles O20: words are equal exactly when their numbers are, and the faults are those of the shape. -/
theorem eqWritesOneExactlyOnEquality : Obligations.EqWritesOneExactlyOnEquality :=
  ⟨fun _ _ _ _ => rfl, fun d _ _ _ _ _ hb hc => exec_eq d hb hc, threeOperandFaults_of_exec fun _ _ _ _ => rfl⟩

/-- Settles O21: the words are compared as numbers, and the faults are those of the shape. -/
theorem gtWritesOneExactlyWhenGreater : Obligations.GtWritesOneExactlyWhenGreater :=
  ⟨fun _ _ _ _ => rfl, fun d _ _ _ _ _ hb hc => exec_gt d hb hc, threeOperandFaults_of_exec fun _ _ _ _ => rfl⟩

end Sys2Proof.Machine
end

section
/-! SUPPORT. Transfers of control (43_control_transfer.md R170 to R175): what a target in range and a wide one do, a
taken branch as the JMP to its target, and CALL and RET. -/

namespace Sys2Proof.Machine

section
variable {a : Operand} {s : State} {v : Word}

theorem resolveTarget_of_le (ha : resolve a s = .ok v) (hle : v.toNat ≤ 32767) : resolveTarget a s = .ok v.toNat :=
  resolveTarget_eq_ok.2 ⟨v, ha, hle, rfl⟩

/-- A handler that resolves a transfer target first goes no further with a wide one (R170). -/
theorem conclude_resolveTarget_bind (ha : resolve a s = .ok v) (hv : 32767 < v.toNat) (f : Nat → Except Stop State) :
    conclude s (resolveTarget a s >>= f) = .next (s.raise .invalidAddress s.pc) := by
  rw [resolveTarget_eq_error.2 (.inr ⟨v, ha, hv, rfl⟩)]
  rfl

/-- JMP to a target in range (R171). -/
theorem exec_jmp (ha : resolve a s = .ok v) (hle : v.toNat ≤ 32767) : exec (.jmp a) s = .next (s.jumpTo v.toNat) := by
  simp [exec, execJmp, resolveTarget_of_le ha hle]

theorem raises_jmp_of_wide (ha : resolve a s = .ok v) (hv : 32767 < v.toNat) : Raises (.jmp a) s .invalidAddress :=
  conclude_resolveTarget_bind ha hv _

/-- A taken branch is the JMP to its target, with the faults of that JMP (R172, R173). -/
theorem branchWhen_taken {taken : Word → Bool} (ha : resolve a s = .ok v) (hv : taken v = true) (b : Operand) :
    branchWhen taken a b s = exec (.jmp b) s := by
  simp [branchWhen, exec, execJmp, ha, hv]

/-- A branch that is not taken skips its three words, whatever the target operand is (R172, R173). -/
theorem branchWhen_not_taken {taken : Word → Bool} (ha : resolve a s = .ok v) (hv : taken v = false) (b : Operand) :
    branchWhen taken a b s = .next (s.advance 3) := by
  simp [branchWhen, ha, hv]

theorem exec_jt_of_ne_zero (ha : resolve a s = .ok v) (hv : v ≠ 0) (b : Operand) :
    exec (.jt a b) s = exec (.jmp b) s :=
  branchWhen_taken ha (isNonzero_eq_true.2 hv) b

theorem exec_jt_of_zero (ha : resolve a s = .ok 0) (b : Operand) : exec (.jt a b) s = .next (s.advance 3) :=
  branchWhen_not_taken ha (isNonzero_eq_false.2 rfl) b

theorem exec_jf_of_zero (ha : resolve a s = .ok 0) (b : Operand) : exec (.jf a b) s = exec (.jmp b) s :=
  branchWhen_taken ha (congrArg not (isNonzero_eq_false.2 rfl)) b

theorem exec_jf_of_ne_zero (ha : resolve a s = .ok v) (hv : v ≠ 0) (b : Operand) :
    exec (.jf a b) s = .next (s.advance 3) :=
  branchWhen_not_taken ha (congrArg not (isNonzero_eq_true.2 hv)) b

/-- CALL of a target in range, with room on the stack (R174). -/
theorem exec_call (ha : resolve a s = .ok v) (hle : v.toNat ≤ 32767) (hroom : Room s) :
    exec (.call a) s = .next { s with stack := s.stack ++ [BitVec.ofNat 16 (s.pc + 2)], pc := v.toNat } := by
  have hpush : s.push (BitVec.ofNat 16 (s.pc + 2)) = .ok { s with stack := s.stack ++ [BitVec.ofNat 16 (s.pc + 2)] } :=
    State.push_eq_ok.2 ⟨hroom, rfl⟩
  simp [exec, execCall, resolveTarget_of_le ha hle, hpush, State.jumpTo]

/-- RET without a top entry is a clean end (R175). -/
theorem exec_ret_of_no_top (htop : s.top = none) : exec .ret s = .next s.halt := by
  simp [exec, execRet, htop]

/-- RET to a top entry in range (R175). -/
theorem exec_ret (htop : s.top = some v) (hle : v.toNat ≤ 32767) :
    exec .ret s = .next (s.dropTop.jumpTo v.toNat) := by
  have ht : checkTarget v = .ok v.toNat := checkTarget_eq_ok.2 ⟨hle, rfl⟩
  simp [exec, execRet, htop, ht]

/-- RET checks the top entry before it pops it (R175). -/
theorem raises_ret_of_wide (htop : s.top = some v) (hv : 32767 < v.toNat) : Raises .ret s .invalidAddress := by
  have ht : checkTarget v = .error (.raise .invalidAddress) := checkTarget_eq_error.2 ⟨hv, rfl⟩
  simp [Raises, exec, execRet, htop, ht, State.raise]

end

end Sys2Proof.Machine
end

section
namespace Sys2Proof.Machine

/-- Settles O22: the target is resolved, then checked, then jumped to. -/
theorem jmpSetsPcToTheTarget : Obligations.JmpSetsPcToTheTarget :=
  ⟨fun _ _ => rfl, fun _ _ _ ha hle => exec_jmp ha hle, fun _ _ _ ha hv => raises_jmp_of_wide ha hv, fun _ _ => rfl⟩

/-- Settles O23: for a nonzero value JT is the JMP to its target, and for 0 it skips. -/
theorem jtBranchesOnNonzero : Obligations.JtBranchesOnNonzero := by
  refine ⟨fun _ _ _ => rfl, fun a b s v t ha hv hb hle => ?_, fun a b s ha => exec_jt_of_zero ha b,
    fun a b s v t ha hv hb ht => ?_, fun a w s v ha hv => ?_, fun _ _ _ => rfl⟩
  · exact (exec_jt_of_ne_zero ha hv b).trans (exec_jmp hb hle)
  · exact (exec_jt_of_ne_zero ha hv b).trans (raises_jmp_of_wide hb ht)
  · exact exec_jt_of_ne_zero ha hv (.invalid w)

/-- Settles O24: for 0 JF is the JMP to its target, and for any other value it skips. -/
theorem jfBranchesOnExactlyZero : Obligations.JfBranchesOnExactlyZero := by
  refine ⟨fun _ _ _ => rfl, fun a b s t ha hb hle => ?_, fun a b s v ha hv => exec_jf_of_ne_zero ha hv b,
    fun a b s t ha hb ht => ?_, fun a w s ha => ?_, fun _ _ _ => rfl⟩
  · exact (exec_jf_of_zero ha b).trans (exec_jmp hb hle)
  · exact (exec_jf_of_zero ha b).trans (raises_jmp_of_wide hb ht)
  · exact exec_jf_of_zero ha (.invalid w)

/-- Settles O25: the target is resolved and checked before the push, and pc + 2 is at most 32768, so a word holds it. -/
theorem callPushesTheReturnAddressAndJumps : Obligations.CallPushesTheReturnAddressAndJumps := by
  refine ⟨fun _ _ => rfl, fun a s v ha hle hpc hroom => ?_, fun _ _ _ ha hv => conclude_resolveTarget_bind ha hv _,
    fun _ _ => rfl⟩
  have hword : (BitVec.ofNat 16 (s.pc + 2)).toNat = s.pc + 2 := by
    rw [BitVec.toNat_ofNat]; omega
  exact ⟨_, hword, exec_call ha hle hroom⟩

/-- Settles O26: the last entry of the stack is the top, which is checked before it is popped. -/
theorem retPopsTheTargetOrHalts : Obligations.RetPopsTheTargetOrHalts := by
  refine ⟨fun _ => rfl, fun s h => exec_ret_of_no_top (s.top_of_empty h), fun s below e h hle => ?_,
    fun s below e h hv => raises_ret_of_wide (s.top_of_append h) hv⟩
  rw [exec_ret (s.top_of_append h) hle, s.dropTop_of_append h]
  rfl

end Sys2Proof.Machine
end

section
/-! SUPPORT. The arithmetic results (44_arithmetic.md R190 to R192): the number a reduced result stands for, the two
cases of the divisor, and ADD, MULT and MOD into a register. -/

namespace Sys2Proof.Machine

/-- The reduced number is below 2 ^ 15, so the word holds it. -/
theorem toNat_reduce15 (n : Nat) : (reduce15 n).toNat = n % 32768 := by
  rw [reduce15, BitVec.toNat_ofNat]; omega

theorem modValue_of_ne_zero {vc : Word} (vb : Word) (hc : vc ≠ 0) :
    modValue vb vc = .ok (reduce15 (vb.toNat % vc.toNat)) := if_neg hc

theorem modValue_zero (vb : Word) : modValue vb 0 = .error (.raise .arithmeticFault) := if_pos rfl

section
variable {b c : Operand} {s : State} {vb vc : Word}

/-- A computation that raises ends this shape in fault entry, once both operands resolve (R125). -/
theorem threeOperand_of_raise {f : Word → Word → Except Stop Word} {k : FaultKind} (d : RegIndex)
    (hb : resolve b s = .ok vb) (hc : resolve c s = .ok vc) (hf : f vb vc = .error (.raise k)) :
    threeOperand f (.register d) b c s = .next (s.raise k s.pc) := by
  simp [threeOperand, dest, hb, hc, hf]

/-- ADD into a register of operands that resolve (R190). -/
theorem exec_add (d : RegIndex) (hb : resolve b s = .ok vb) (hc : resolve c s = .ok vc) :
    exec (.add (.register d) b c) s = .next ((s.setReg d (reduce15 (vb.toNat + vc.toNat))).advance 4) :=
  threeOperand_of_value d hb hc rfl

/-- MULT into a register of operands that resolve (R191). -/
theorem exec_mult (d : RegIndex) (hb : resolve b s = .ok vb) (hc : resolve c s = .ok vc) :
    exec (.mult (.register d) b c) s = .next ((s.setReg d (reduce15 (vb.toNat * vc.toNat))).advance 4) :=
  threeOperand_of_value d hb hc rfl

/-- MOD into a register of operands that resolve, by a divisor other than 0 (R192). -/
theorem exec_mod (d : RegIndex) (hb : resolve b s = .ok vb) (hc : resolve c s = .ok vc) (hne : vc ≠ 0) :
    exec (.mod (.register d) b c) s = .next ((s.setReg d (reduce15 (vb.toNat % vc.toNat))).advance 4) :=
  threeOperand_of_value d hb hc (modValue_of_ne_zero vb hne)

/-- MOD by 0 faults after every operand check, and the destination keeps its value (R192). -/
theorem raises_mod_of_zero (d : RegIndex) (hb : resolve b s = .ok vb) (hc : resolve c s = .ok 0) :
    Raises (.mod (.register d) b c) s .arithmeticFault :=
  threeOperand_of_raise d hb hc (modValue_zero vb)

end

end Sys2Proof.Machine
end

section
namespace Sys2Proof.Machine

/-- Settles O27: the reduced exact sum is written, and the faults are those of the shape. -/
theorem addWritesTheSumModulo32768 : Obligations.AddWritesTheSumModulo32768 :=
  ⟨fun _ _ _ _ => rfl, fun d _ _ _ _ _ hb hc => ⟨_, toNat_reduce15 _, exec_add d hb hc⟩,
    threeOperandFaults_of_exec fun _ _ _ _ => rfl⟩

/-- Settles O28: the reduced exact product is written, and the faults are those of the shape. -/
theorem multWritesTheProductModulo32768 : Obligations.MultWritesTheProductModulo32768 :=
  ⟨fun _ _ _ _ => rfl, fun d _ _ _ _ _ hb hc => ⟨_, toNat_reduce15 _, exec_mult d hb hc⟩,
    threeOperandFaults_of_exec fun _ _ _ _ => rfl⟩

/-- Settles O29: by the two cases of the divisor, which is looked at after the operand checks of the shape. -/
theorem modWritesTheRemainderOrFaults : Obligations.ModWritesTheRemainderOrFaults :=
  ⟨fun _ _ _ _ => rfl, fun d _ _ _ _ _ hb hc hne => ⟨_, toNat_reduce15 _, exec_mod d hb hc hne⟩,
    fun d _ _ _ _ hb hc => raises_mod_of_zero d hb hc, threeOperandFaults_of_exec fun _ _ _ _ => rfl⟩

end Sys2Proof.Machine
end

section
/-! SUPPORT. The bitwise results (45_bitwise.md R210 to R213): the bits the mask keeps and the one it clears, and AND, OR
and NOT into a register. -/

namespace Sys2Proof.Machine

/-- The mask keeps bits 14 to 0 (R213). -/
theorem getLsbD_mask15_of_lt (v : Word) {j : Nat} (hj : j < 15) : (mask15 v).getLsbD j = v.getLsbD j := by
  have hbit : (0x7FFF : Word).getLsbD j = true := by
    interval_cases j <;> rfl
  rw [mask15, BitVec.getLsbD_and, hbit, Bool.and_true]

/-- The mask clears bit 15 (R213). -/
theorem getLsbD_mask15_top (v : Word) : (mask15 v).getLsbD 15 = false := by
  simp [mask15]

section
variable {b c : Operand} {s : State} {vb vc : Word}

/-- AND into a register of operands that resolve (R210). -/
theorem exec_and (d : RegIndex) (hb : resolve b s = .ok vb) (hc : resolve c s = .ok vc) :
    exec (.and (.register d) b c) s = .next ((s.setReg d (mask15 (vb &&& vc))).advance 4) :=
  threeOperand_of_value d hb hc rfl

/-- OR into a register of operands that resolve (R211). -/
theorem exec_or (d : RegIndex) (hb : resolve b s = .ok vb) (hc : resolve c s = .ok vc) :
    exec (.or (.register d) b c) s = .next ((s.setReg d (mask15 (vb ||| vc))).advance 4) :=
  threeOperand_of_value d hb hc rfl

/-- NOT into a register of an operand that resolves (R212). -/
theorem exec_not (d : RegIndex) (hb : resolve b s = .ok vb) :
    exec (.not (.register d) b) s = .next ((s.setReg d (mask15 (~~~vb))).advance 3) := by
  simp [exec, execNot, dest, hb]

end

end Sys2Proof.Machine
end

section
namespace Sys2Proof.Machine

/-- Settles O30: the masked conjunction is written, and the faults are those of the shape. -/
theorem andWritesTheMaskedConjunction : Obligations.AndWritesTheMaskedConjunction :=
  ⟨fun _ _ _ _ => rfl, fun d _ _ _ _ _ hb hc => exec_and d hb hc, threeOperandFaults_of_exec fun _ _ _ _ => rfl⟩

/-- Settles O31: the masked disjunction is written, and the faults are those of the shape. -/
theorem orWritesTheMaskedDisjunction : Obligations.OrWritesTheMaskedDisjunction :=
  ⟨fun _ _ _ _ => rfl, fun d _ _ _ _ _ hb hc => exec_or d hb hc, threeOperandFaults_of_exec fun _ _ _ _ => rfl⟩

/-- Settles O32: the destination is checked, then the operand resolved, then the masked complement written. -/
theorem notWritesTheFifteenBitComplement : Obligations.NotWritesTheFifteenBitComplement :=
  ⟨fun _ _ _ => rfl, fun d _ _ _ hb => exec_not d hb, fun _ _ _ ha => raises_invalidDestination rfl ha,
    fun _ _ _ => rfl⟩

/-- Settles O33: the three results are masked words, so bit 15 is clear and a lower bit is that of the plain operation
on the operands. -/
theorem bitwiseResultsBitByBit : Obligations.BitwiseResultsBitByBit := by
  intro d b c s vb vc hb hc
  refine ⟨_, _, _, exec_and d hb hc, exec_or d hb hc, exec_not d hb, fun j hj => ⟨?_, ?_, ?_⟩,
    getLsbD_mask15_top _, getLsbD_mask15_top _, getLsbD_mask15_top _⟩
  · rw [getLsbD_mask15_of_lt _ hj, BitVec.getLsbD_and]
  · rw [getLsbD_mask15_of_lt _ hj, BitVec.getLsbD_or]
  · have hword : j < 16 := by omega
    rw [getLsbD_mask15_of_lt _ hj, BitVec.getLsbD_not, decide_eq_true hword, Bool.true_and]

end Sys2Proof.Machine
end

section
/-! SUPPORT. RMEM and WMEM (46_memory.md R220, R221, R223): what a wide address does, the two values of RMEM_WIDE, and
RMEM into a register. -/

namespace Sys2Proof.Machine

theorem widen_of_storeRaw {cfg : Config} (h : cfg.rmemWide = .storeRaw) (v : Word) : widen cfg v = v := by
  simp only [widen, h]

theorem widen_of_mask15 {cfg : Config} (h : cfg.rmemWide = .mask15) (v : Word) : widen cfg v = mask15 v := by
  simp only [widen, h]

section
variable {a b : Operand} {s : State} {addr v : Word}

/-- RMEM into a register from an address in range (R220). -/
theorem exec_rmem (d : RegIndex) (hb : resolve b s = .ok addr) (hle : addr.toNat ≤ 32767) :
    exec (.rmem (.register d) b) s = .next ((s.setReg d (widen s.cfg (s.mem.read addr.toNat))).advance 3) := by
  have hread : memRead addr.toNat s = .ok (s.mem.read addr.toNat) := memRead_eq_ok.2 ⟨hle, rfl⟩
  simp [exec, execRmem, dest, hb, hread]

/-- RMEM looks at the range of the address after both operand checks (R220). -/
theorem raises_rmem_of_wide (d : RegIndex) (hb : resolve b s = .ok addr) (hv : 32767 < addr.toNat) :
    Raises (.rmem (.register d) b) s .invalidAddress := by
  have hread : memRead addr.toNat s = .error (.raise .invalidAddress) := memRead_eq_error.2 ⟨hv, rfl⟩
  simp [Raises, exec, execRmem, dest, hb, hread, State.raise]

/-- WMEM looks at the range of the address after both operands resolve (R221). -/
theorem raises_wmem_of_wide (ha : resolve a s = .ok addr) (hb : resolve b s = .ok v) (hv : 32767 < addr.toNat) :
    Raises (.wmem a b) s .invalidAddress := by
  have hwrite : memWrite addr.toNat v s = .error (.raise .invalidAddress) := memWrite_eq_error.2 ⟨hv, rfl⟩
  simp [Raises, exec, execWmem, ha, hb, hwrite, State.raise]

/-- WMEM resolves its value operand whatever the address, wide ones too (R221). -/
theorem raises_wmem_of_invalid_value (ha : resolve a s = .ok addr) (w : Word) :
    Raises (.wmem a (.invalid w)) s .invalidOperand := by
  have hb : resolve (.invalid w) s = .error (.raise .invalidOperand) := rfl
  simp [Raises, exec, execWmem, ha, hb, State.raise]

end

end Sys2Proof.Machine
end

section
namespace Sys2Proof.Machine

/-- Settles O34: the destination is checked, then the address resolved and checked, and the cell's word is widened by
the case of RMEM_WIDE. -/
theorem rmemCopiesTheCellIntoTheRegister : Obligations.RmemCopiesTheCellIntoTheRegister := by
  refine ⟨fun _ _ _ => rfl, fun d b s addr hb hle => ⟨fun hraw => ?_, fun hmask => ?_⟩,
    fun d _ _ _ hb hv => raises_rmem_of_wide d hb hv, fun _ _ _ ha => raises_invalidDestination rfl ha,
    fun _ _ _ => rfl⟩
  · rw [exec_rmem d hb hle, widen_of_storeRaw hraw]
    rfl
  · rw [exec_rmem d hb hle, widen_of_mask15 hmask]
    rfl

/-- Settles O35: both operands are resolved, then the address checked, and the new memory is a write of the one cell,
which a canonical memory reads back there and nowhere else. -/
theorem wmemStoresTheValueInOneCell : Obligations.WmemStoresTheValueInOneCell := by
  refine ⟨fun _ _ _ => rfl, fun a b s addr v ha hb hle => ?_, fun _ _ _ _ _ ha hb hv => raises_wmem_of_wide ha hb hv,
    fun _ _ _ => rfl, fun _ w _ _ ha => raises_wmem_of_invalid_value ha w⟩
  refine ⟨_, exec_wmem ha hb hle, fun hm => ?_⟩
  have hread : ∀ c, (s.mem.write addr.toNat v).read c = if c = addr.toNat then v else s.mem.read c :=
    fun c => Memory.read_write hm.1 addr.toNat c v
  exact ⟨(hread _).trans (if_pos rfl), fun c hc => (hread c).trans (if_neg hc)⟩

end Sys2Proof.Machine
end

section
/-! SUPPORT. OUT and IN (47_io.md R230 to R232): OUT of a value, IN of a register by what the input source gives, and the
host at an ended source. -/

namespace Sys2Proof.Machine

section
variable {s t : State}

/-- OUT of an operand that resolves (R230). -/
theorem exec_out {a : Operand} {v : Word} (ha : resolve a s = .ok v) :
    exec (.out a) s = .next ((s.emit (v.setWidth 8)).advance 2) := by
  simp [exec, execOut, ha]

/-- IN of a register holds there the byte the input source gives (R231). -/
theorem exec_inp {b : Byte} {u : State} (d : RegIndex) (hb : s.takeByte = .ok (b, u)) :
    exec (.inp (.register d)) s = .next ((u.setReg d (b.setWidth 16)).advance 2) := by
  simp [exec, execInp, dest, hb]

/-- IN of a register ends as the input source does when it gives no byte (R231, R232). -/
theorem exec_inp_of_no_byte {e : Stop} (d : RegIndex) (he : s.takeByte = .error e) :
    exec (.inp (.register d)) s = conclude s (.error e) := by
  simp [exec, execInp, dest, he]

/-- IN of a register waits while no byte is available and none may be put in its place (R231, R232). -/
theorem exec_inp_waits (d : RegIndex) (hp : s.input.pending = []) (hend : s.input.ended = true → s.cfg.inEof = .block) :
    exec (.inp (.register d)) s = .fault .waitingForInput :=
  exec_inp_of_no_byte d (takeByte_eq_error.2 ⟨hp, .inl ⟨rfl, hend⟩⟩)

/-- The end of the input source is a fault under IN_EOF = Fail (R232, R258). -/
theorem raises_inp_of_ended (d : RegIndex) (hp : s.input.pending = []) (hend : s.input.ended = true)
    (hfail : s.cfg.inEof = .fail) : Raises (.inp (.register d)) s .inputExhausted :=
  exec_inp_of_no_byte d (takeByte_eq_error.2 ⟨hp, .inr ⟨rfl, hend, hfail⟩⟩)

/-- Once the source has ended, no host event changes the state (R232, log 21). -/
theorem hostMove_of_ended {e : HostEvent} (hend : s.input.ended = true) (h : hostMove e s = some t) : t = s := by
  cases e with
  | supply b => exact (Option.some.inj h).symm.trans (if_pos hend)
  | endInput =>
    obtain rfl : s.endInput = t := Option.some.inj h
    simp [State.endInput, ← hend]
  | terminate => cases h

end

end Sys2Proof.Machine
end

section
namespace Sys2Proof.Machine

/-- Settles O38: the emitted byte is the resolved value cut to 8 bits. -/
theorem outEmitsTheLowByte : Obligations.OutEmitsTheLowByte :=
  ⟨fun _ _ => rfl, fun _ _ v ha => ⟨v.setWidth 8, BitVec.toNat_setWidth 8 v, exec_out ha⟩, fun _ _ => rfl⟩

/-- Settles O39: the destination is checked, then the input source gives its next byte, or the wait. -/
theorem inTakesExactlyOneByte : Obligations.InTakesExactlyOneByte := by
  refine ⟨fun _ _ => rfl, fun d s b later hp => ⟨b.setWidth 16, BitVec.toNat_setWidth_of_le (by decide), ?_⟩,
    fun d s hp hend => exec_inp_waits d hp fun h => ?_, fun _ _ ha => raises_invalidDestination rfl ha⟩
  · exact exec_inp d (takeByte_eq_ok.2 (.inl ⟨later, hp, rfl⟩))
  · cases hend.symm.trans h

/-- Settles O40: by the value of IN_EOF; under Block the wait lasts, because the host can no longer change the state. -/
theorem endOfInputFollowsInEof : Obligations.EndOfInputFollowsInEof := by
  refine fun d s hp hend => ⟨fun hblock => ?_, fun b hs => ?_, raises_inp_of_ended d hp hend⟩
  · have hwait := exec_inp_waits d hp fun _ => hblock
    refine ⟨hwait, fun e t h => ?_⟩
    obtain rfl := hostMove_of_ended hend h
    exact ⟨rfl, hwait⟩
  · exact exec_inp d (takeByte_eq_ok.2 (.inr ⟨hp, hend, hs, rfl⟩))

end Sys2Proof.Machine
end

section
/-! SUPPORT. Which instruction raises which fault (60_exceptions.md R241 to R247, R258): the causes of a fault kind, each of
which makes the instruction take fault entry with that kind, and which are the only ones. -/

namespace Sys2Proof.Machine

/-- The destination operand, where there is one, is a register (R98). -/
def DestinationPasses (i : Instr) : Prop := ∀ a, destinationOperand i = some a → ∃ d, a = .register d

/-- The instruction is a JT or JF that branches to the target `b` (R172, R173). -/
def TakesBranch (s : State) (i : Instr) (b : Operand) : Prop :=
  (∃ a v, i = .jt a b ∧ resolve a s = .ok v ∧ v ≠ 0) ∨ (∃ a, i = .jf a b ∧ resolve a s = .ok 0)

/-- The causes of each fault kind that an instruction can raise. -/
inductive FaultCause (s : State) : Instr → FaultKind → Prop
  | destination {i : Instr} {a : Operand} (hi : destinationOperand i = some a) (ha : ∀ d, a ≠ .register d) :
      FaultCause s i .invalidDestination
  | operand {i : Instr} {w : Word} (hd : DestinationPasses i) (hw : .invalid w ∈ valueOperands i) :
      FaultCause s i .invalidOperand
  | branchTarget {i : Instr} {w : Word} (hb : TakesBranch s i (.invalid w)) : FaultCause s i .invalidOperand
  | underflow (d : RegIndex) (hs : s.stack = []) : FaultCause s (.pop (.register d)) .stackUnderflow
  | divisor (d : RegIndex) {b c : Operand} {vb : Word} (hb : resolve b s = .ok vb) (hc : resolve c s = .ok 0) :
      FaultCause s (.mod (.register d) b c) .arithmeticFault
  | endOfInput (d : RegIndex) (hp : s.input.pending = []) (hend : s.input.ended = true)
      (hfail : s.cfg.inEof = .fail) : FaultCause s (.inp (.register d)) .inputExhausted
  | wideRead (d : RegIndex) {b : Operand} {v : Word} (hb : resolve b s = .ok v) (hv : 32767 < v.toNat) :
      FaultCause s (.rmem (.register d) b) .invalidAddress
  | wideStore {a b : Operand} {v u : Word} (ha : resolve a s = .ok v) (hb : resolve b s = .ok u)
      (hv : 32767 < v.toNat) : FaultCause s (.wmem a b) .invalidAddress
  | wideTarget {i : Instr} {a : Operand} {v : Word} (hi : i = .jmp a ∨ i = .call a) (ha : resolve a s = .ok v)
      (hv : 32767 < v.toNat) : FaultCause s i .invalidAddress
  | wideBranch {i : Instr} {b : Operand} {u : Word} (hi : TakesBranch s i b) (hb : resolve b s = .ok u)
      (hu : 32767 < u.toNat) : FaultCause s i .invalidAddress
  | wideReturn {below : List Word} {e : Word} (hs : s.stack = below ++ [e]) (he : 32767 < e.toNat) :
      FaultCause s .ret .invalidAddress

section
variable {i : Instr} {s t : State} {k : FaultKind}

/-! ### A cause makes the instruction raise -/

/-- JT and JF have no destination to check (R172, R173). -/
theorem TakesBranch.destinationPasses {b : Operand} (h : TakesBranch s i b) : DestinationPasses i := by
  obtain ⟨a, v, rfl, -⟩ | ⟨a, rfl, -⟩ := h <;> exact nofun

theorem TakesBranch.exec_eq_jmp {b : Operand} (h : TakesBranch s i b) : exec i s = exec (.jmp b) s := by
  obtain ⟨a, v, rfl, ha, hv⟩ | ⟨a, rfl, ha⟩ := h
  · exact exec_jt_of_ne_zero ha hv b
  · exact exec_jf_of_zero ha b

/-- The shape with two value operands raises for an invalid one among them, whichever comes first (R125). -/
theorem ThreeOperandFaults.raises_invalidOperand {mk : Operand → Operand → Operand → Instr} (h : ThreeOperandFaults mk)
    (d : RegIndex) {b c : Operand} {w : Word} (hw : .invalid w ∈ [b, c]) :
    Raises (mk (.register d) b c) s .invalidOperand := by
  obtain ⟨-, hsecond, hthird⟩ := h
  cases b with
  | invalid w' => exact hsecond d w' c s
  | literal _ | register _ =>
    obtain rfl : .invalid w = c := by simpa using hw
    exact hthird d _ w s _ rfl

/-- Once the destination passes, an invalid word among the value operands raises (R125, R247). -/
theorem raises_invalidOperand {w : Word} (hd : DestinationPasses i) (hw : .invalid w ∈ valueOperands i) :
    Raises i s .invalidOperand := by
  cases i with
  | eq | gt | add | mult | mod | and | or =>
    obtain ⟨d, rfl⟩ := hd _ rfl
    exact (threeOperandFaults_of_exec fun _ _ _ _ => rfl).raises_invalidOperand d hw
  | set | not | rmem =>
    obtain ⟨d, rfl⟩ := hd _ rfl
    obtain rfl := List.mem_singleton.1 hw
    rfl
  | push | jmp | call | out | jt | jf =>
    obtain rfl := List.mem_singleton.1 hw
    rfl
  | wmem a b =>
    cases a with
    | invalid _ => rfl
    | literal _ | register _ =>
      obtain rfl : .invalid w = b := by simpa [valueOperands] using hw
      exact raises_wmem_of_invalid_value rfl w
  | halt | pop | ret | inp | noop | unknown => cases hw

theorem FaultCause.raises (h : FaultCause s i k) : Raises i s k := by
  cases h with
  | destination hi ha => exact raises_invalidDestination hi ha
  | operand hd hw => exact raises_invalidOperand hd hw
  | branchTarget hb => exact hb.exec_eq_jmp
  | underflow d hs => exact exec_pop_of_no_top d (s.top_of_empty hs)
  | divisor d hb hc => exact raises_mod_of_zero d hb hc
  | endOfInput d hp hend hfail => exact raises_inp_of_ended d hp hend hfail
  | wideRead d hb hv => exact raises_rmem_of_wide d hb hv
  | wideStore ha hb hv => exact raises_wmem_of_wide ha hb hv
  | wideTarget hi ha hv =>
    obtain rfl | rfl := hi
    · exact raises_jmp_of_wide ha hv
    · exact conclude_resolveTarget_bind ha hv _
  | wideBranch hi hb hu => exact hi.exec_eq_jmp.trans (raises_jmp_of_wide hb hu)
  | wideReturn hs he => exact raises_ret_of_wide (s.top_of_append hs) he

/-! ### Without a cause it takes no fault entry -/

/-- What an instruction answers that takes no fault entry: a next state with the fault record of before, or no step. -/
inductive Unfaulted (i : Instr) (s : State) : Prop
  | next (t : State) (he : exec i s = .next t) (ht : t.fault = s.fault)
  | stuck (f : Fault) (he : exec i s = .fault f)

theorem Unfaulted.not_raises (h : Unfaulted i s) (hs : s.fault = none) : ¬ Raises i s k := by
  intro hr
  cases h with
  | next t he ht =>
    obtain rfl := Host.Outcome.next.inj (he.symm.trans hr)
    cases ht.trans hs
  | stuck f he => cases he.symm.trans hr

/-- An operand that is no invalid word resolves (R97). -/
theorem exists_resolve_of_ne_invalid {o : Operand} (h : ∀ w, o ≠ .invalid w) : ∃ v, resolve o s = .ok v := by
  cases o with
  | invalid w => exact absurd rfl (h w)
  | literal _ | register _ => exact ⟨_, rfl⟩

/-- The check of the destination or of a value operand fails, or all of them pass (R125). -/
theorem faultCause_or_operands_pass (i : Instr) (s : State) :
    (∃ k, FaultCause s i k) ∨ DestinationPasses i ∧ ∀ o ∈ valueOperands i, ∃ v, resolve o s = .ok v := by
  by_cases hd : DestinationPasses i
  · by_cases hw : ∃ w, .invalid w ∈ valueOperands i
    · obtain ⟨w, hw⟩ := hw
      exact .inl ⟨_, .operand hd hw⟩
    · exact .inr ⟨hd, fun o ho => exists_resolve_of_ne_invalid fun w how => hw ⟨w, how ▸ ho⟩⟩
  · simp only [DestinationPasses, not_forall, not_exists] at hd
    obtain ⟨a, hi, ha⟩ := hd
    exact .inl ⟨_, .destination hi ha⟩

/-- On a stack without room PUSH and CALL are stuck (R44). -/
theorem push_of_not_room (h : ¬ Room s) (v : Word) : s.push v = .error (.stuck .stackFull) := by
  simp only [Room, not_forall, Nat.not_lt] at h
  obtain ⟨n, hc, hn⟩ := h
  exact State.push_of_full hc hn v

theorem TakesBranch.faultCause_or_unfaulted {b : Operand} (h : TakesBranch s i b) :
    (∃ k, FaultCause s i k) ∨ Unfaulted i s := by
  by_cases hw : ∃ w, b = .invalid w
  · obtain ⟨w, rfl⟩ := hw
    exact .inl ⟨_, .branchTarget h⟩
  · obtain ⟨u, hu⟩ := exists_resolve_of_ne_invalid (s := s) (not_exists.1 hw)
    obtain hwide | hle := Nat.lt_or_ge 32767 u.toNat
    · exact .inl ⟨_, .wideBranch h hu hwide⟩
    · exact .inr (.next _ (h.exec_eq_jmp.trans (exec_jmp hu hle)) rfl)

/-- IN of a register takes a byte, waits, or finds the end of the input source (R231, R232). -/
theorem inp_faultCause_or_unfaulted (d : RegIndex) :
    (∃ k, FaultCause s (.inp (.register d)) k) ∨ Unfaulted (.inp (.register d)) s := by
  cases hb : s.takeByte with
  | ok p =>
    obtain ⟨b, u⟩ := p
    obtain ⟨rest, -, rfl⟩ := takeByte_input hb
    exact .inr (.next _ (exec_inp d hb) rfl)
  | error e =>
    obtain ⟨hp, ⟨-, hblock⟩ | ⟨-, hend, hfail⟩⟩ := takeByte_eq_error.1 hb
    · exact .inr (.stuck _ (exec_inp_waits d hp hblock))
    · exact .inl ⟨_, .endOfInput d hp hend hfail⟩

/-- RET ends the run, jumps, or finds a wide entry on top (R175). -/
theorem ret_faultCause_or_unfaulted : (∃ k, FaultCause s .ret k) ∨ Unfaulted .ret s := by
  cases htop : s.top with
  | none => exact .inr (.next _ (exec_ret_of_no_top htop) rfl)
  | some e =>
    obtain hwide | hle := Nat.lt_or_ge 32767 e.toNat
    · exact .inl ⟨_, .wideReturn (State.stack_eq_of_top htop) hwide⟩
    · exact .inr (.next _ (exec_ret htop hle) rfl)

/-- Every instruction has a cause to raise, or takes no fault entry. -/
theorem faultCause_or_unfaulted (i : Instr) (s : State) : (∃ k, FaultCause s i k) ∨ Unfaulted i s := by
  obtain h | ⟨hd, hv⟩ := faultCause_or_operands_pass i s
  · exact .inl h
  cases i with
  | halt => exact .inr (.next s.halt rfl rfl)
  | noop | unknown => exact .inr (.next (s.advance 1) rfl rfl)
  | ret => exact ret_faultCause_or_unfaulted
  | inp =>
    obtain ⟨d, rfl⟩ := hd _ rfl
    exact inp_faultCause_or_unfaulted d
  | pop =>
    obtain ⟨d, rfl⟩ := hd _ rfl
    cases htop : s.top with
    | none => exact .inl ⟨_, .underflow d (List.getLast?_eq_none_iff.1 htop)⟩
    | some v => exact .inr (.next _ (exec_pop d htop) rfl)
  | set a b =>
    obtain ⟨d, rfl⟩ := hd _ rfl
    obtain ⟨v, hb⟩ := hv b (.head _)
    exact .inr (.next _ (exec_set d hb) rfl)
  | not a b =>
    obtain ⟨d, rfl⟩ := hd _ rfl
    obtain ⟨v, hb⟩ := hv b (.head _)
    exact .inr (.next _ (exec_not d hb) rfl)
  | rmem a b =>
    obtain ⟨d, rfl⟩ := hd _ rfl
    obtain ⟨v, hb⟩ := hv b (.head _)
    obtain hwide | hle := Nat.lt_or_ge 32767 v.toNat
    · exact .inl ⟨_, .wideRead d hb hwide⟩
    · exact .inr (.next _ (exec_rmem d hb hle) rfl)
  | eq a b c | gt a b c | add a b c | mult a b c | and a b c | or a b c =>
    obtain ⟨d, rfl⟩ := hd _ rfl
    obtain ⟨vb, hb⟩ := hv b (.head _)
    obtain ⟨vc, hc⟩ := hv c (.tail _ (.head _))
    exact .inr (.next _ (threeOperand_of_value d hb hc rfl) rfl)
  | mod a b c =>
    obtain ⟨d, rfl⟩ := hd _ rfl
    obtain ⟨vb, hb⟩ := hv b (.head _)
    obtain ⟨vc, hc⟩ := hv c (.tail _ (.head _))
    by_cases hzero : vc = 0
    · exact .inl ⟨_, .divisor d hb (hzero ▸ hc)⟩
    · exact .inr (.next _ (exec_mod d hb hc hzero) rfl)
  | wmem a b =>
    obtain ⟨v, ha⟩ := hv a (.head _)
    obtain ⟨u, hb⟩ := hv b (.tail _ (.head _))
    obtain hwide | hle := Nat.lt_or_ge 32767 v.toNat
    · exact .inl ⟨_, .wideStore ha hb hwide⟩
    · exact .inr (.next _ (exec_wmem ha hb hle) rfl)
  | out a =>
    obtain ⟨v, ha⟩ := hv a (.head _)
    exact .inr (.next _ (exec_out ha) rfl)
  | push a =>
    obtain ⟨v, ha⟩ := hv a (.head _)
    by_cases hroom : Room s
    · exact .inr (.next _ (exec_push ha hroom) rfl)
    · exact .inr (.stuck .stackFull (by simp [exec, execPush, ha, push_of_not_room hroom]))
  | jmp a =>
    obtain ⟨v, ha⟩ := hv a (.head _)
    obtain hwide | hle := Nat.lt_or_ge 32767 v.toNat
    · exact .inl ⟨_, .wideTarget (.inl rfl) ha hwide⟩
    · exact .inr (.next _ (exec_jmp ha hle) rfl)
  | call a =>
    obtain ⟨v, ha⟩ := hv a (.head _)
    obtain hwide | hle := Nat.lt_or_ge 32767 v.toNat
    · exact .inl ⟨_, .wideTarget (.inr rfl) ha hwide⟩
    by_cases hroom : Room s
    · exact .inr (.next _ (exec_call ha hle hroom) rfl)
    · exact .inr (.stuck .stackFull (by simp [exec, execCall, resolveTarget_of_le ha hle, push_of_not_room hroom]))
  | jt a b =>
    obtain ⟨v, ha⟩ := hv a (.head _)
    by_cases hzero : v = 0
    · exact .inr (.next _ (exec_jt_of_zero (hzero ▸ ha) b) rfl)
    · exact TakesBranch.faultCause_or_unfaulted (.inl ⟨a, v, rfl, ha, hzero⟩)
  | jf a b =>
    obtain ⟨v, ha⟩ := hv a (.head _)
    by_cases hzero : v = 0
    · exact TakesBranch.faultCause_or_unfaulted (.inr ⟨a, rfl, hzero ▸ ha⟩)
    · exact .inr (.next _ (exec_jf_of_ne_zero ha hzero b) rfl)

theorem Raises.kind_unique {k' : FaultKind} (h : Raises i s k) (h' : Raises i s k') : k = k' := by
  have hfault := congrArg State.fault (Host.Outcome.next.inj (h.symm.trans h'))
  exact congrArg FaultRecord.kind (Option.some.inj hfault)

/-- The causes of a fault kind are the only ones. -/
theorem raises_iff_faultCause (hs : s.fault = none) : Raises i s k ↔ FaultCause s i k := by
  refine ⟨fun h => ?_, FaultCause.raises⟩
  obtain ⟨k', hk⟩ | hun := faultCause_or_unfaulted i s
  · exact h.kind_unique hk.raises ▸ hk
  · exact absurd h (hun.not_raises hs)

end

end Sys2Proof.Machine
end

section
namespace Sys2Proof.Machine

/-- Settles O42: the one cause of this kind is the check of the destination, which comes first. -/
theorem invalidDestinationExactlyForNonRegisterDestinations :
    Obligations.InvalidDestinationExactlyForNonRegisterDestinations := by
  intro i s hs
  rw [raises_iff_faultCause hs]
  refine ⟨fun h => ?_, fun ⟨a, hi, ha⟩ => .destination hi ha⟩
  cases h with
  | destination hi ha => exact ⟨_, hi, ha⟩

/-- Settles O43: the causes of this kind are an invalid value operand and an invalid target of a taken branch, and a
branch has no destination. -/
theorem invalidOperandExactlyForInvalidValueWords : Obligations.InvalidOperandExactlyForInvalidValueWords := by
  intro i s hs
  rw [raises_iff_faultCause hs]
  constructor
  · intro h
    cases h with
    | operand hd hw => exact ⟨hd, .inl ⟨_, hw⟩⟩
    | branchTarget hb =>
      refine ⟨hb.destinationPasses, .inr ?_⟩
      exact hb.imp (fun ⟨a, v, h⟩ => ⟨a, _, v, h⟩) fun ⟨a, h⟩ => ⟨a, _, h⟩
  · rintro ⟨hd, ⟨w, hw⟩ | ⟨a, w, v, h⟩ | ⟨a, w, h⟩⟩
    · exact .operand hd hw
    · exact .branchTarget (.inl ⟨a, v, h⟩)
    · exact .branchTarget (.inr ⟨a, h⟩)

/-- Settles O44: each of these kinds has one cause. -/
theorem underflowDivisorAndEndOfInputFaults : Obligations.UnderflowDivisorAndEndOfInputFaults := by
  intro i s hs
  simp only [raises_iff_faultCause hs]
  refine ⟨⟨fun h => ?_, ?_⟩, ⟨fun h => ?_, ?_⟩, ⟨fun h => ?_, ?_⟩⟩
  · cases h with
    | underflow d hempty => exact ⟨d, rfl, hempty⟩
  · rintro ⟨d, rfl, hempty⟩
    exact .underflow d hempty
  · cases h with
    | divisor d hb hc => exact ⟨d, _, _, _, rfl, hb, hc⟩
  · rintro ⟨d, b, c, vb, rfl, hb, hc⟩
    exact .divisor d hb hc
  · cases h with
    | endOfInput d hp hend hfail => exact ⟨d, rfl, hp, hend, hfail⟩
  · rintro ⟨d, rfl, hp, hend, hfail⟩
    exact .endOfInput d hp hend hfail

/-- Settles O45: the causes of this kind are a wide address of RMEM or WMEM and a wide target of a transfer. -/
theorem invalidAddressExactlyForWideAddresses : Obligations.InvalidAddressExactlyForWideAddresses := by
  intro i s hs
  rw [raises_iff_faultCause hs]
  constructor
  · intro h
    cases h with
    | wideRead d hb hv => exact .inl ⟨d, _, _, rfl, hb, hv⟩
    | wideStore ha hb hv => exact .inr (.inl ⟨_, _, _, _, rfl, ha, hb, hv⟩)
    | wideTarget hi ha hv => exact .inr (.inr (.inl ⟨_, _, hi, ha, hv⟩))
    | wideBranch hi hb hu =>
      obtain ⟨a, v, rfl, ha, hv⟩ | ⟨a, rfl, ha⟩ := hi
      · exact .inr (.inr (.inr (.inl ⟨a, _, v, _, rfl, ha, hv, hb, hu⟩)))
      · exact .inr (.inr (.inr (.inr (.inl ⟨a, _, _, rfl, ha, hb, hu⟩))))
    | wideReturn hst he => exact .inr (.inr (.inr (.inr (.inr ⟨_, _, rfl, hst, he⟩))))
  · rintro (⟨d, b, v, rfl, hb, hv⟩ | ⟨a, b, v, u, rfl, ha, hb, hv⟩ | ⟨a, v, hi, ha, hv⟩ |
      ⟨a, b, v, u, rfl, ha, hv, hb, hu⟩ | ⟨a, b, u, rfl, ha, hb, hu⟩ | ⟨below, e, rfl, hst, he⟩)
    · exact .wideRead d hb hv
    · exact .wideStore ha hb hv
    · exact .wideTarget hi ha hv
    · exact .wideBranch (.inl ⟨a, v, rfl, ha, hv⟩) hb hu
    · exact .wideBranch (.inr ⟨a, rfl, ha⟩) hb hu
    · exact .wideReturn hst he

end Sys2Proof.Machine
end

section
/-! SUPPORT. The start of a run (70_reset_and_hazards.md R270 to R274): the invariant there and past a host event, and the
words of an image file. -/

namespace Sys2Proof.Machine

/-! ### The invariant -/

/-- The reset machine with a canonical memory meets the invariant, whatever the parameters (R270). -/
theorem State.inv_reset_with {m : Memory} (hm : Memory.wf m) (cfg : Config) :
    ({ State.reset with mem := m, cfg := cfg } : State).Inv where
  memoryCanonical := hm
  pcInRange       := Nat.zero_le _
  stackFits       := fun _ _ => Nat.zero_le _
  faultIffFailed  := by simp [State.reset]
  faultAtPc       := nofun

theorem Memory.wf_nil : Memory.wf [] := ⟨.nil, nofun⟩

/-- The invariant does not speak of the input source (R54). -/
theorem State.Inv.with_input {s : State} (hs : s.Inv) (inp : InputSource) : ({ s with input := inp } : State).Inv :=
  ⟨hs.memoryCanonical, hs.pcInRange, hs.stackFits, hs.faultIffFailed, hs.faultAtPc⟩

/-! ### LOAD -/

theorem State.load_of_le (cfg : Config) {image : List Word} (h : image.length ≤ 32768) :
    State.load cfg image = { State.reset with mem := Memory.fill 0 image, cfg := cfg } :=
  if_pos h

/-- An image larger than memory is refused (R272). -/
theorem State.load_of_gt (cfg : Config) {image : List Word} (h : 32768 < image.length) :
    State.load cfg image = ({ State.reset with cfg := cfg } : State).raise .imageTooLarge 0 :=
  if_neg (by omega)

theorem State.load_inv (cfg : Config) (image : List Word) : (State.load cfg image).Inv := by
  by_cases h : image.length ≤ 32768
  · rw [State.load_of_le cfg h]
    exact State.inv_reset_with (Memory.fill_keeps_wf (by omega)) cfg
  · rw [State.load_of_gt cfg (by omega)]
    exact (State.inv_reset_with Memory.wf_nil cfg).raise nofun

/-! ### Image files -/

/-- The two bytes take disjoint bits of the word (R273). -/
theorem toNat_wordOfBytes (b0 b1 : Byte) : (wordOfBytes b0 b1).toNat = b0.toNat + 256 * b1.toNat := by
  have h0 : b0.toNat < 2 ^ 8 := b0.isLt
  have h1 := b1.isLt
  have hshift : (b1.setWidth 16 <<< 8).toNat = b1.toNat <<< 8 := by
    simp only [BitVec.toNat_shiftLeft, BitVec.toNat_setWidth, Nat.shiftLeft_eq]
    omega
  rw [wordOfBytes, BitVec.toNat_or, BitVec.toNat_setWidth_of_le (by decide), hshift, Nat.or_comm,
    ← Nat.shiftLeft_add_eq_or_of_lt h0, Nat.shiftLeft_eq]
  omega

/-- The words of a file are those of its pairs of bytes, low byte first (R273). -/
def PairsOfBytes (bytes : List Byte) (ws : List Word) : Prop :=
  2 * ws.length = bytes.length ∧
    ∀ j, (h : j < ws.length) → (h0 : 2 * j < bytes.length) → (h1 : 2 * j + 1 < bytes.length) →
      ws[j].toNat = bytes[2 * j].toNat + 256 * bytes[2 * j + 1].toNat

theorem PairsOfBytes.cons {bytes : List Byte} {ws : List Word} (h : PairsOfBytes bytes ws) (b0 b1 : Byte) :
    PairsOfBytes (b0 :: b1 :: bytes) (wordOfBytes b0 b1 :: ws) := by
  obtain ⟨hlen, hword⟩ := h
  refine ⟨by simp only [List.length_cons]; omega, fun j hj h0 h1 => ?_⟩
  cases j with
  | zero => exact toNat_wordOfBytes b0 b1
  | succ j =>
    simp only [List.length_cons] at hj h0 h1
    exact hword j (by omega) (by omega) (by omega)

theorem imageOfBytes_cons_cons (b0 b1 : Byte) (bytes : List Byte) :
    imageOfBytes (b0 :: b1 :: bytes) = (imageOfBytes bytes).map (wordOfBytes b0 b1 :: ·) := by
  rw [imageOfBytes]
  cases imageOfBytes bytes <;> rfl

/-- A file of even length has an image, one word for each pair (R273). -/
theorem imageOfBytes_of_even : (bytes : List Byte) → bytes.length % 2 = 0 →
    ∃ ws, imageOfBytes bytes = some ws ∧ PairsOfBytes bytes ws
  | [], _ => ⟨[], rfl, rfl, nofun⟩
  | b0 :: b1 :: bytes, h => by
    simp only [List.length_cons] at h
    obtain ⟨ws, hws, hpairs⟩ := imageOfBytes_of_even bytes (by omega)
    exact ⟨_, by rw [imageOfBytes_cons_cons, hws]; rfl, hpairs.cons b0 b1⟩

/-- A file of odd length has none (R274). -/
theorem imageOfBytes_of_odd : (bytes : List Byte) → bytes.length % 2 = 1 → imageOfBytes bytes = none
  | [_], _ => rfl
  | b0 :: b1 :: bytes, h => by
    simp only [List.length_cons] at h
    rw [imageOfBytes_cons_cons, imageOfBytes_of_odd bytes (by omega)]
    rfl

end Sys2Proof.Machine
end

section
namespace Sys2Proof.Machine

/-- Settles O52: at reset memory is empty, hence canonical, and every field has its reset value. -/
theorem resetStateMeetsTheInvariant : Obligations.ResetStateMeetsTheInvariant :=
  ⟨State.inv_reset_with Memory.wf_nil Config.reference, fun _ => Vector.getElem_replicate _, rfl, rfl, rfl, rfl, rfl,
    fun _ => rfl⟩

/-- Settles O53: a loaded machine is the reset one with the filled memory, or fault entry on it; and the host reaches only
the input source. -/
theorem loadAndHostEventsKeepTheInvariant : Obligations.LoadAndHostEventsKeepTheInvariant := by
  refine ⟨State.load_inv, fun e s t hs h => ?_⟩
  rw [hostMove_changes_input_only h]
  exact hs.with_input t.input

/-- Settles O57: the filled memory reads as the image and 0 beyond it; a refused machine has failed, so it has no step. -/
theorem loadResetsTheMachineOrRefusesTheImage : Obligations.LoadResetsTheMachineOrRefusesTheImage := by
  refine fun cfg image => ⟨fun h => ?_, fun h => ?_⟩
  · have hread : ∀ a, (Memory.fill 0 image).read a = image[a]?.getD unlistedCell :=
      fun a => by simpa using Memory.read_fill image 0 a
    refine ⟨Memory.fill 0 image, State.load_of_le cfg h, fun a ha => ?_, fun a ha => ?_⟩
    · rw [hread, List.getElem?_eq_getElem ha]
      rfl
    · rw [hread, List.getElem?_eq_none ha]
      rfl
  · rw [State.load_of_gt cfg h]
    refine ⟨rfl, fun t ht => ?_⟩
    cases (step_of_failed rfl).symm.trans ht

/-- Settles O58: the image of a file is read pair by pair, and LOAD gets that image. -/
theorem imageFilesAreLittleEndianPairs : Obligations.ImageFilesAreLittleEndianPairs := by
  refine fun cfg bytes => ⟨fun h => ?_, fun h => ?_⟩
  · obtain ⟨ws, hws, hlen, hword⟩ := imageOfBytes_of_even bytes h
    exact ⟨ws, hws, by rw [State.loadFile, hws], hlen, hword⟩
  · rw [State.loadFile, imageOfBytes_of_odd bytes h]

end Sys2Proof.Machine
end
